-- ==== Sys2Proof/Word.lean ====
section
/-! DEFINITION. The data types of the touch protocol engine: bytes, touch points, reports, the decoded
status and the results it hands out (spec/10_state.md, rules R20, R21, R22, R32; spec/30_encoding.md R95). -/

namespace Sys2Proof

/-- A byte is 8 bits, bit 0 the least significant (R11). -/
abbrev Byte := BitVec 8

/-- TouchPoint (R20): contact slot, display-space coordinates, pressure. -/
structure TouchPoint where
  id : BitVec 8
  x : BitVec 16
  y : BitVec 16
  weight : BitVec 8
deriving DecidableEq, Repr, Inhabited

/-- The all-zero TouchPoint `TP0` (R20). -/
def TouchPoint.zero : TouchPoint := { id := 0, x := 0, y := 0, weight := 0 }

/-- A report's metadata, type Meta (R21). -/
structure Metadata where
  packetCode : BitVec 8
  gesture : Option (BitVec 8)
  down : Option (BitVec 16 × BitVec 16)
  up : Option (BitVec 16 × BitVec 16)
deriving DecidableEq, Repr, Inhabited

/-- `META0` (R21). -/
def Metadata.zero : Metadata := { packetCode := 0, gesture := none, down := none, up := none }

/-- TouchReport (R21), as the Shared Touch Buffer stores it: `points` holds exactly `MAX_POINTS` slots
in every reachable state (`Safety.lean`), of which the first `touchNum` are meaningful. -/
structure TouchReport where
  points : List TouchPoint
  touchNum : Nat
  metadata : Metadata
deriving DecidableEq, Repr

/-- What TAKE returns (R214): a copy holding the meaningful points only. -/
structure Snapshot where
  touchNum : Nat
  points : List TouchPoint
  metadata : Metadata
deriving DecidableEq, Repr

/-- F-QUERY, the projection the consumer sees (R95, R218). -/
structure QueryResult where
  pressed : Bool
  pointCount : Nat
  x : BitVec 16
  y : BitVec 16
  weight : BitVec 8
deriving DecidableEq, Repr

/-- StatusWord (R22): eleven flags and the pending length. A decoded, transient value, no register. -/
structure StatusWord where
  ptExist : Bool
  gesture : Bool
  key : Bool
  aux : Bool
  keep : Bool
  rawOrPt : Bool
  cpuRunning : Bool
  intLow : Bool
  inCpuState : Bool
  inBootRom : Bool
  busy : Bool
  pendingLength : BitVec 16
deriving DecidableEq, Repr

/-- The six branches, in priority order (R14, R146). -/
inductive Branch where
  | b1 | b2 | b3 | b4 | b5 | b6
deriving DecidableEq, Repr

/-- `RES.code` (R32, R244). -/
inductive ResCode where
  | noEvent | ok | failStatus | failWrite | failData | running
deriving DecidableEq, Repr

/-- `RES` (R32). `branch` is `none` for the spec's 0, "no branch selected yet"; `loc` is the spec's
`at`, an index of the micro-program or 0. -/
structure Result where
  code : ResCode
  branch : Option Branch
  loc : Fin 23
deriving DecidableEq, Repr

/-- `upc` (R27): `IDLE`, or an index 0 to 22 of the micro-program. -/
inductive Upc where
  | idle
  | run (k : Fin 23)
deriving DecidableEq, Repr

/-- What the environment answers to one bus transaction (R62, R63): `Fail`, or `Ok` with the bytes in
wire order. A write's success carries no bytes. -/
inductive BusAnswer where
  | fail
  | ok (bytes : List Byte)
deriving DecidableEq, Repr

end Sys2Proof
end

