-- ==== Sys2Proof/Config.lean ====
section
/-! DEFINITION. The parameters of the model (spec/00_scope.md R8, R9) and the free values. Every
parameter is plain data; the two parameters that are functions, `LAYOUT` and `SAMPLING_PRED`, are named
by plain data, and the name `free k` stands for an uninterpreted function (log 3, log 5). -/

namespace Sys2Proof

/-- Which functions `point` and `meta` a `LAYOUT` has (R9): the reference layout `LAYOUT_P4` (R183), the
layout `LAYOUT_GK` of general knowledge (G3, no authority), or an uninterpreted pair. -/
inductive Codec where
  | p4
  | gk
  | free (k : Nat)
deriving DecidableEq, Repr

/-- The parameter `LAYOUT` (R9). -/
structure Layout where
  hdrLen : Nat
  recLen : Nat
  codec : Codec
deriving DecidableEq, Repr

/-- Which function `SAMPLING_PRED` is (R8, R143): the default constant `false`, the other reading
`cpu_running`, or an uninterpreted predicate. -/
inductive Sampling where
  | never
  | cpuRunning
  | free (k : Nat)
deriving DecidableEq, Repr

/-- A control payload `PL_*`: two bytes in wire order (R8, R92). -/
structure Payload where
  p0 : Byte
  p1 : Byte
deriving DecidableEq, Repr

/-- The parameters of R8, before their constraints. `devAddr` is opaque to the block; `tSettle` is a
number of microseconds. -/
structure Params where
  devAddr : Nat
  regStatus : BitVec 16
  regPointData : BitVec 16
  regClearInt : BitVec 16
  regStartCpu : BitVec 16
  regPointMode : BitVec 16
  regStartSampling : BitVec 16
  plClearInt : Payload
  plStartCpu : Payload
  plPointMode : Payload
  plStartSampling : Payload
  tSettle : Nat
  maxPoints : Nat
  maxXfer : Nat
  layout : Layout
  sampling : Sampling
deriving DecidableEq, Repr

/-- `SCRATCH_LEN = HDR_LEN + MAX_POINTS * REC_LEN` (R9, R31). -/
def Params.scratchLen (p : Params) : Nat := p.layout.hdrLen + p.maxPoints * p.layout.recLen

/-- A codec that fixes record positions has the header and record lengths of its layout. -/
def Layout.lengthsFit (l : Layout) : Bool :=
  match l.codec with
  | .p4 => l.hdrLen == 0 && l.recLen == 4
  | .gk => l.hdrLen == 4 && l.recLen == 6
  | .free _ => true

/-- The four command addresses are pairwise distinct (R8, R72). -/
def Params.commandsDistinct (p : Params) : Bool :=
  p.regClearInt != p.regStartCpu && p.regClearInt != p.regPointMode &&
  p.regClearInt != p.regStartSampling && p.regStartCpu != p.regPointMode &&
  p.regStartCpu != p.regStartSampling && p.regPointMode != p.regStartSampling

/-- The constraints of R8's table. -/
def Params.wf (p : Params) : Bool :=
  p.commandsDistinct && decide (0 < p.tSettle) && decide (1 ≤ p.maxPoints) &&
  decide (1 ≤ p.maxXfer) && decide (p.maxXfer ≤ 65535) && decide (1 ≤ p.layout.recLen) &&
  decide (p.scratchLen ≤ 65535) && p.layout.lengthsFit

/-- A configuration: parameters that meet R8's constraints. An ill-formed instantiation "is not a
run-time error but an ill-formed configuration, which a model refuses to build" (R243). -/
structure Config extends Params where
  ok : toParams.wf = true := by decide
deriving DecidableEq, Repr

/-- `REF`, the reference instantiation of R8, for tests only: its numbers are PRESUMED (the spec marks
them as general knowledge or as its own choice, log 2). No statement rests on them. -/
def Config.ref : Config where
  devAddr := 0x53
  regStatus := 0x2000
  regPointData := 0x0003
  regClearInt := 0x0200
  regStartCpu := 0x0400
  regPointMode := 0x5000
  regStartSampling := 0x4600
  plClearInt := { p0 := 0x01, p1 := 0x00 }
  plStartCpu := { p0 := 0x01, p1 := 0x00 }
  plPointMode := { p0 := 0x00, p1 := 0x00 }
  plStartSampling := { p0 := 0x00, p1 := 0x00 }
  tSettle := 200
  maxPoints := 5
  maxXfer := 64
  layout := { hdrLen := 0, recLen := 4, codec := .p4 }
  sampling := .never

/-- Free value: `LAYOUT.point` of the uninterpreted codec `k` (R9, R184; log 3). -/
opaque Config.freePoint : Nat → Nat → List Byte → TouchPoint

/-- Free value: `LAYOUT.meta` of the uninterpreted codec `k` (R9, R185; log 3). -/
opaque Config.freeMeta : Nat → StatusWord → List Byte → Metadata

/-- Free value: the uninterpreted predicate `SAMPLING_PRED` number `k` (R8, R143; log 5). -/
opaque Config.freeSampling : Nat → StatusWord → Bool

/-- Free value: whether the bus transaction number `c` that no queued answer serves succeeds (R6, U5; log 9). -/
opaque Config.freeOk : Nat → Bool

/-- Free value: the bytes that transaction `c` returns when `n` are asked for; the model keeps at most
`n` of them (R62, U5; log 9). -/
opaque Config.freeBytes : Nat → Nat → List Byte

/-- Free value: `SW` after the RESET event (R47, U10; log 7). -/
opaque Config.freeSw : Nat → BitVec 32

/-- Free value: `REM` after the RESET event (R47, U10; log 7). -/
opaque Config.freeRem : Nat → BitVec 16

/-- Free value: `OFF` after the RESET event (R47, U10; log 7). -/
opaque Config.freeOff : Nat → BitVec 16

/-- Free value: byte `k` of `SCRATCH` after the RESET event (R47, U10; log 7). -/
opaque Config.freeScratch : Nat → Nat → Byte

end Sys2Proof
end

