-- ==== Sys2Proof/Machine/Flags.lean ====
section
/-! DEFINITION. The Status Decoder (spec/40_status_decoder.md) and the branch conditions computed from
its flags (spec/41_command_sequencer.md R143, R146). The block has no condition codes (R33); these are
all the flags there are. -/

namespace Sys2Proof.Machine

/-- `Decode(SW)` (R120): each flag is one bit of `SW` or the constant 0, and the pending length is
`SW[31:16]`. `key`, `keep` and `rawOrPt` are 0 for every input (R126). -/
def decodeStatus (sw : BitVec 32) : StatusWord where
  ptExist := sw.getLsbD 0
  gesture := sw.getLsbD 1
  key := false
  aux := sw.getLsbD 3
  keep := false
  rawOrPt := false
  cpuRunning := sw.getLsbD 11
  intLow := sw.getLsbD 12
  inCpuState := sw.getLsbD 13
  inBootRom := sw.getLsbD 14
  busy := sw.getLsbD 15
  pendingLength := sw.extractLsb' 16 16

/-- The parameter `SAMPLING_PRED` as a function (R8, R143). -/
def samplingPred (p : Sampling) (st : StatusWord) : Bool :=
  match p with
  | .never => false
  | .cpuRunning => st.cpuRunning
  | .free k => Config.freeSampling k st

/-- `Branch(s)` (R146): the first condition that holds, in the fixed priority order. -/
def branchOf (cfg : Config) (st : StatusWord) : Branch :=
  if st.inBootRom then .b1
  else if st.inCpuState && !samplingPred cfg.sampling st then .b2
  else if st.cpuRunning && st.pendingLength == 0 then .b3
  else if st.ptExist || st.gesture then .b4
  else if st.cpuRunning && st.aux then .b5
  else .b6

/-- `RES.code` as the number of R32 and R244. -/
def resCodeNumber (c : ResCode) : Nat :=
  match c with
  | .noEvent => 0
  | .ok => 1
  | .failStatus => 2
  | .failWrite => 3
  | .failData => 4
  | .running => 7

/-- The three transient failures (R240, R244). -/
def isFailure (c : ResCode) : Bool :=
  match c with
  | .failStatus | .failWrite | .failData => true
  | .noEvent | .ok | .running => false

end Sys2Proof.Machine
end

