-- ==== Sys2Proof/Machine/Operands.lean ====
section
/-! DEFINITION. Operand assembly: the packing of status bytes (R11), the numbers built from bytes
(R101), the payload layouts (R94, R183, G3) and the count of records (R186, R187). -/

namespace Sys2Proof.Machine

/-- `b3:b2:b1:b0` (R11): the four status bytes in bus order, `b0` in bits 7 to 0. -/
def packWord (b0 b1 b2 b3 : Byte) : BitVec 32 := b3 ++ b2 ++ b1 ++ b0

/-- The four bytes of a 32-bit word, least significant first; the inverse of `packWord`. -/
def wordBytes (w : BitVec 32) : List Byte :=
  [w.extractLsb' 0 8, w.extractLsb' 8 8, w.extractLsb' 16 8, w.extractLsb' 24 8]

/-- The status word of an answer to the status read: its first four bytes (R144). -/
def packStatus (bytes : List Byte) : BitVec 32 :=
  packWord (bytes.getD 0 0) (bytes.getD 1 0) (bytes.getD 2 0) (bytes.getD 3 0)

/-- `LAYOUT_P4.point` (R183): `x = r[2][7:4]:r[0]`, `y = r[2][3:0]:r[1]`, `weight = r[3]`, the position
as the identifier. The spec's own layout, not the device's. -/
def pointP4 (i : Nat) (r : List Byte) : TouchPoint where
  id := BitVec.ofNat 8 i
  x := ((r.getD 2 0).extractLsb' 4 4 ++ r.getD 0 0).setWidth 16
  y := ((r.getD 2 0).extractLsb' 0 4 ++ r.getD 1 0).setWidth 16
  weight := r.getD 3 0

/-- `LAYOUT_GK.point` (G3, general knowledge, no authority; PRESUMED, log 4). -/
def pointGk (r : List Byte) : TouchPoint where
  id := r.getD 0 0
  x := ((r.getD 3 0).extractLsb' 4 4 ++ r.getD 1 0).setWidth 16
  y := ((r.getD 3 0).extractLsb' 0 4 ++ r.getD 2 0).setWidth 16
  weight := r.getD 4 0

/-- `LAYOUT_GK.meta` (G3, general knowledge, no authority; PRESUMED, log 4). -/
def metadataGk (st : StatusWord) (p : List Byte) : Metadata where
  packetCode := if 4 < p.length then p.getD 4 0 else 0
  gesture := if st.gesture && decide (6 < p.length) && p.getD 4 0 == 0xF6 then
    some (p.getD 6 0 &&& 0x07) else none
  down := none
  up := none

/-- `LAYOUT.point(i, r)` (R9, R184). -/
def layoutPoint (l : Layout) (i : Nat) (r : List Byte) : TouchPoint :=
  match l.codec with
  | .p4 => pointP4 i r
  | .gk => pointGk r
  | .free k => Config.freePoint k i r

/-- `LAYOUT.meta(s, p)` (R9, R185); always `META0` under `LAYOUT_P4` (R183). -/
def layoutMetadata (l : Layout) (st : StatusWord) (p : List Byte) : Metadata :=
  match l.codec with
  | .p4 => Metadata.zero
  | .gk => metadataGk st p
  | .free k => Config.freeMeta k st p

/-- `DevCount(s)` (R186): the number of whole records the payload holds when points exist, else 0. -/
def devCount (cfg : Config) (st : StatusWord) : Nat :=
  if st.ptExist && decide (cfg.layout.hdrLen ≤ st.pendingLength.toNat) then
    (st.pendingLength.toNat - cfg.layout.hdrLen) / cfg.layout.recLen
  else 0

/-- The number of records produced, `min(DevCount, MAX_POINTS)` (R187). -/
def recordCount (cfg : Config) (st : StatusWord) : Nat := min (devCount cfg st) cfg.maxPoints

/-- The bytes of record `i` in the scratch buffer (R94, R189). -/
def recordBytes (cfg : Config) (scratch : List Byte) (i : Nat) : List Byte :=
  (scratch.drop (cfg.layout.hdrLen + i * cfg.layout.recLen)).take cfg.layout.recLen

/-- The stored payload prefix given to `LAYOUT.meta` (R185, R189). -/
def payloadPrefix (cfg : Config) (st : StatusWord) (scratch : List Byte) : List Byte :=
  scratch.take (min st.pendingLength.toNat cfg.scratchLen)

/-- The slots of the assembled report: the first `recordCount` decoded through `LAYOUT`, the rest
`TP0` (R189). -/
def assemblePoints (cfg : Config) (st : StatusWord) (scratch : List Byte) : List TouchPoint :=
  (List.range cfg.maxPoints).map fun i =>
    if i < recordCount cfg st then layoutPoint cfg.layout i (recordBytes cfg scratch i)
    else TouchPoint.zero

/-- The report PUBL assembles from `SW` and `SCRATCH` (R189). -/
def assembleReport (cfg : Config) (sw : BitVec 32) (scratch : List Byte) : TouchReport where
  points := assemblePoints cfg (decodeStatus sw) scratch
  touchNum := recordCount cfg (decodeStatus sw)
  metadata := layoutMetadata cfg.layout (decodeStatus sw)
    (payloadPrefix cfg (decodeStatus sw) scratch)

/-- Chunk size of a payload read, `min(REM, MAX_XFER)` (R101, R181). -/
def chunkSize (cfg : Config) (rem : BitVec 16) : Nat := min rem.toNat cfg.maxXfer

/-- Store a chunk's bytes from payload offset `off` on; a byte at or past the end of the buffer is read
but discarded (R181, R188). -/
def storeChunk (scratch : List Byte) (off : Nat) : List Byte → List Byte
  | [] => scratch
  | b :: bs =>
    storeChunk (if off < scratch.length then scratch.set off b else scratch) (off + 1) bs

/-- The snapshot TAKE hands out: the first `touch_num` slots and the metadata as stored (R214, R215). -/
def snapshotOf (r : TouchReport) : Snapshot where
  touchNum := r.touchNum
  points := r.points.take r.touchNum
  metadata := r.metadata

/-- The F-QUERY projection of a snapshot (R218). -/
def queryOf (s : Snapshot) : QueryResult :=
  if 0 < s.touchNum then
    { pressed := true
      pointCount := s.touchNum
      x := (s.points.getD 0 TouchPoint.zero).x
      y := (s.points.getD 0 TouchPoint.zero).y
      weight := (s.points.getD 0 TouchPoint.zero).weight }
  else { pressed := false, pointCount := 0, x := 0, y := 0, weight := 0 }

/-- The empty report of RESET: every slot `TP0`, metadata `META0`, count 0 (R46). -/
def emptyReport (cfg : Config) : TouchReport where
  points := List.replicate cfg.maxPoints TouchPoint.zero
  touchNum := 0
  metadata := Metadata.zero

end Sys2Proof.Machine
end

