-- ==== Sys2Proof/Syntax.lean ====
section
/-! DEFINITION. The instructions: one constructor for each of the 29 rows of spec/opcode_table.json, and
the kinds of word the rows are encoded in. -/

namespace Sys2Proof

/-- One constructor per row of the operation table. A row of format F-STATUS carries the status payload
it is read from (`SW = b3:b2:b1:b0`, R11); `CMD_RD_POINTS` carries its byte count (R93); no other row
has a run-time operand (R92, R100, R106). -/
inductive Instr where
  -- events, format F-EVENT (R106)
  | reset
  | take
  | poll
  | irq
  | query
  -- the Status Decoder, format F-STATUS (R120)
  | decode (sw : BitVec 32)
  -- branch selectors, format F-STATUS (R96)
  | branch1 (sw : BitVec 32)
  | branch2 (sw : BitVec 32)
  | branch3 (sw : BitVec 32)
  | branch4Pt (sw : BitVec 32)
  | branch4Ges (sw : BitVec 32)
  | branch5 (sw : BitVec 32)
  | branch6 (sw : BitVec 32)
  -- micro-ops, format F-UOP (R100)
  | rdst
  | disp
  | wclr
  | wcpu
  | wptm
  | wsta
  | rdpt
  | publ
  | lclr
  | done
  -- bus commands, formats F-RD and F-CW (R92, R93, R102)
  | cmdRdStatus
  | cmdRdPoints (n : BitVec 16)
  | cmdClearInt
  | cmdStartCpu
  | cmdPointMode
  | cmdStartSampling
deriving DecidableEq, Repr

/-- The kinds of word. "the rows of different groups are not alternatives of one decoder: each group
has its own word (an event, a status payload, a micro-op code, a bus command)" (spec/30_encoding.md).
`query` is the event vector whose requester wants the F-QUERY projection: QUERY shares TAKE's code
(R106). `decoder` and `branch` are the two readings of a status payload. `read first` is a read request,
with its position in the cycle, which R102 needs where the two read addresses are equal. -/
inductive WordKind where
  | event
  | query
  | decoder
  | branch
  | uop
  | read (first : Bool)
  | write
deriving DecidableEq, Repr

end Sys2Proof
end

