-- ==== Sys2Proof/Decode.lean ====
section
/-! DEFINITION. Decoding and encoding of the words of spec/30_encoding.md: the event vectors (R106), the
micro-op codes (R100), the decode map from a status payload to a branch (R96) and the bus commands
(R92, R93, R102). -/

namespace Sys2Proof

/-- Why a word is no instruction. -/
inductive DecodeError where
  /-- Fewer or more bytes than the kind of word has. -/
  | wrongLength
  /-- A 4-bit word with a bit above bit 3 set. -/
  | strayBits
  /-- An event vector with no request in it. -/
  | noRequest
  /-- An event vector with more than one bit set (R106: "does not occur in the model"). -/
  | severalRequests
  /-- Micro-op codes `0xA` to `0xF` (R100). -/
  | unusedMicroOp
  /-- A bus command to an address the block never uses in that direction (R102). -/
  | unknownCommand
  /-- A read request with a count the block never asks for (R69). -/
  | wrongCount
  /-- A control write whose two bytes are not the command's payload (R92). -/
  | wrongPayload
deriving DecidableEq, Repr

/-- The event vector `rst : take_req : poll_req : irq_fall` (R106). -/
def decodeEvent (v : BitVec 4) : Except DecodeError Instr :=
  match v.toNat with
  | 0 => .error .noRequest
  | 1 => .ok .irq
  | 2 => .ok .poll
  | 4 => .ok .take
  | 8 => .ok .reset
  | _ => .error .severalRequests

/-- QUERY is requested by TAKE's code (R106). -/
def decodeQuery (v : BitVec 4) : Except DecodeError Instr :=
  match v.toNat with
  | 0 => .error .noRequest
  | 4 => .ok .query
  | _ => .error .severalRequests

/-- The micro-op code (R100). -/
def decodeUop (c : BitVec 4) : Except DecodeError Instr :=
  match c.toNat with
  | 0 => .ok .rdst
  | 1 => .ok .disp
  | 2 => .ok .wclr
  | 3 => .ok .wcpu
  | 4 => .ok .wptm
  | 5 => .ok .wsta
  | 6 => .ok .rdpt
  | 7 => .ok .publ
  | 8 => .ok .lclr
  | 9 => .ok .done
  | _ => .error .unusedMicroOp

/-- A row of the decode map holds: `(SW & mask) == match` (R96). -/
def rowMatches (sw mask value : BitVec 32) : Bool := sw &&& mask == value

/-- The decode map of R96: the seven rows tested in priority order, the first that holds is taken. -/
def selectRow (cfg : Config) (sw : BitVec 32) : Instr :=
  if rowMatches sw 0x00004000 0x00004000 then .branch1 sw
  else if rowMatches sw 0x00002000 0x00002000
      && !Machine.samplingPred cfg.sampling (Machine.decodeStatus sw) then .branch2 sw
  else if rowMatches sw 0xFFFF0800 0x00000800 then .branch3 sw
  else if rowMatches sw 0x00000001 0x00000001 then .branch4Pt sw
  else if rowMatches sw 0x00000002 0x00000002 then .branch4Ges sw
  else if rowMatches sw 0x00000808 0x00000808 then .branch5 sw
  else .branch6 sw

/-- F-RD (R93): `reg` in the high half, the count in the low half. The two reads are told apart by
address where the addresses differ and otherwise by position (R102). -/
def decodeRead (cfg : Config) (first : Bool) (w : BitVec 32) : Except DecodeError Instr :=
  let reg := w.extractLsb' 16 16
  let n := w.extractLsb' 0 16
  if reg == cfg.regStatus && (cfg.regStatus != cfg.regPointData || first) then
    if n == 4 then .ok .cmdRdStatus else .error .wrongCount
  else if reg == cfg.regPointData then
    if decide (1 ≤ n.toNat) && decide (n.toNat ≤ cfg.maxXfer) then .ok (.cmdRdPoints n)
    else .error .wrongCount
  else .error .unknownCommand

/-- F-CW (R92): `reg`, then `p0`, then `p1`. The four writes are told apart by address alone (R102). -/
def decodeWrite (cfg : Config) (w : BitVec 32) : Except DecodeError Instr :=
  let reg := w.extractLsb' 16 16
  let pl : Payload := { p0 := w.extractLsb' 8 8, p1 := w.extractLsb' 0 8 }
  if reg == cfg.regClearInt then
    if pl = cfg.plClearInt then .ok .cmdClearInt else .error .wrongPayload
  else if reg == cfg.regStartCpu then
    if pl = cfg.plStartCpu then .ok .cmdStartCpu else .error .wrongPayload
  else if reg == cfg.regPointMode then
    if pl = cfg.plPointMode then .ok .cmdPointMode else .error .wrongPayload
  else if reg == cfg.regStartSampling then
    if pl = cfg.plStartSampling then .ok .cmdStartSampling else .error .wrongPayload
  else .error .unknownCommand

/-- A 4-bit word in a byte: bits 7 to 4 are no bits of the word and must be 0. -/
def nibbleOf (bytes : List Byte) : Except DecodeError (BitVec 4) :=
  match bytes with
  | [b] => if b.extractLsb' 4 4 == 0 then .ok (b.extractLsb' 0 4) else .error .strayBits
  | _ => .error .wrongLength

/-- A 32-bit word in four bytes, least significant first: the bus order of a status payload (R11). -/
def wordOf (bytes : List Byte) : Except DecodeError (BitVec 32) :=
  match bytes with
  | [b0, b1, b2, b3] => .ok (Machine.packWord b0 b1 b2 b3)
  | _ => .error .wrongLength

/-- The decoder: total on every kind of word and every byte sequence. -/
def decode (cfg : Config) (kind : WordKind) (bytes : List Byte) : Except DecodeError Instr :=
  match kind with
  | .event => (nibbleOf bytes).bind decodeEvent
  | .query => (nibbleOf bytes).bind decodeQuery
  | .uop => (nibbleOf bytes).bind decodeUop
  | .decoder => (wordOf bytes).map Instr.decode
  | .branch => (wordOf bytes).map (selectRow cfg)
  | .read first => (wordOf bytes).bind (decodeRead cfg first)
  | .write => (wordOf bytes).bind (decodeWrite cfg)

/-- A 4-bit code as its byte. -/
def codeByte (c : BitVec 4) : List Byte := [c.setWidth 8]

/-- A read request as its four bytes (R93). -/
def readBytes (reg n : BitVec 16) : List Byte := Machine.wordBytes (reg ++ n)

/-- A control write as its four bytes (R92). -/
def writeBytes (reg : BitVec 16) (pl : Payload) : List Byte :=
  Machine.wordBytes (reg ++ (pl.p0 ++ pl.p1))

/-- The encoder: the kind of word and the word of a well-formed instruction. -/
def encode (cfg : Config) (i : Instr) : WordKind × List Byte :=
  match i with
  | .reset => (.event, codeByte 0b1000)
  | .take => (.event, codeByte 0b0100)
  | .poll => (.event, codeByte 0b0010)
  | .irq => (.event, codeByte 0b0001)
  | .query => (.query, codeByte 0b0100)
  | .decode sw => (.decoder, Machine.wordBytes sw)
  | .branch1 sw => (.branch, Machine.wordBytes sw)
  | .branch2 sw => (.branch, Machine.wordBytes sw)
  | .branch3 sw => (.branch, Machine.wordBytes sw)
  | .branch4Pt sw => (.branch, Machine.wordBytes sw)
  | .branch4Ges sw => (.branch, Machine.wordBytes sw)
  | .branch5 sw => (.branch, Machine.wordBytes sw)
  | .branch6 sw => (.branch, Machine.wordBytes sw)
  | .rdst => (.uop, codeByte 0x0)
  | .disp => (.uop, codeByte 0x1)
  | .wclr => (.uop, codeByte 0x2)
  | .wcpu => (.uop, codeByte 0x3)
  | .wptm => (.uop, codeByte 0x4)
  | .wsta => (.uop, codeByte 0x5)
  | .rdpt => (.uop, codeByte 0x6)
  | .publ => (.uop, codeByte 0x7)
  | .lclr => (.uop, codeByte 0x8)
  | .done => (.uop, codeByte 0x9)
  | .cmdRdStatus => (.read true, readBytes cfg.regStatus 4)
  | .cmdRdPoints n => (.read false, readBytes cfg.regPointData n)
  | .cmdClearInt => (.write, writeBytes cfg.regClearInt cfg.plClearInt)
  | .cmdStartCpu => (.write, writeBytes cfg.regStartCpu cfg.plStartCpu)
  | .cmdPointMode => (.write, writeBytes cfg.regPointMode cfg.plPointMode)
  | .cmdStartSampling => (.write, writeBytes cfg.regStartSampling cfg.plStartSampling)

/-- The table's 4-bit words: the table's mask keeps bits 3 to 0. The event group is tried before the
micro-op group, since the two share the codes 1, 2, 4 and 8 and the table gives no bit that tells them
apart (log 17). -/
def decodeTableCode (w : Nat) : Option Instr :=
  match decode Config.ref .event (codeByte (BitVec.ofNat 4 w)) with
  | .ok i => some i
  | .error _ =>
    match decode Config.ref .uop (codeByte (BitVec.ofNat 4 w)) with
    | .ok i => some i
    | .error _ => none

/-- The table's 32-bit words: a bus command of `REF` (R102), and every other word a status payload read
through the decode map of R96. The table gives no bit that tells commands and payloads apart (log 17). -/
def decodeTableLong (w : Nat) : Option Instr :=
  let bytes := Machine.wordBytes (BitVec.ofNat 32 w)
  match decode Config.ref .write bytes with
  | .ok i => some i
  | .error _ =>
    match decode Config.ref (.read true) bytes with
    | .ok i => some i
    | .error _ =>
      match decode Config.ref .branch bytes with
      | .ok i => some i
      | .error _ => none

/-- The instruction a word of spec/opcode_table.json is (log 17). -/
def decodeTableWord (nbits w : Nat) : Option Instr :=
  if 16 < nbits then decodeTableLong w else decodeTableCode w

end Sys2Proof
end

