-- ==== Sys2Proof/Machine/MicroProgram.lean ====
section
/-! DEFINITION. The fixed micro-program of 23 micro-ops and the branch entries (spec/41_command_sequencer.md
R141). -/

namespace Sys2Proof.Machine

/-- The micro-program (R141): entry, then one run per branch, each ending in DONE. -/
def microProgram : Vector Instr 23 :=
  #v[.rdst, .disp,
     .wclr, .wcpu, .lclr, .done,
     .wptm, .wsta, .wclr, .lclr, .done,
     .wclr, .lclr, .done,
     .rdpt, .publ, .wclr, .lclr, .done,
     .wclr, .lclr, .done,
     .done]

/-- The micro-op at an index. -/
def microAt (k : Fin 23) : Instr := microProgram[k]

/-- `ENTRY` (R141). -/
def branchEntry (b : Branch) : Fin 23 :=
  match b with
  | .b1 => 2
  | .b2 => 6
  | .b3 => 11
  | .b4 => 14
  | .b5 => 19
  | .b6 => 22

/-- The number of a branch (R14). -/
def branchNumber (b : Branch) : Nat :=
  match b with
  | .b1 => 1
  | .b2 => 2
  | .b3 => 3
  | .b4 => 4
  | .b5 => 5
  | .b6 => 6

/-- The index after `u` (R27: "`upc + 1`"; index 22 holds DONE, which goes to IDLE). -/
def nextUpc (u : Upc) : Upc :=
  match u with
  | .idle => .idle
  | .run k => if h : k.val + 1 < 23 then .run ⟨k.val + 1, h⟩ else .idle

/-- The index `upc` holds; 0 when idle, where no micro-op runs. -/
def upcIndex (u : Upc) : Fin 23 :=
  match u with
  | .idle => 0
  | .run k => k

/-- The micro-program holds `i` at `u`. -/
def holdsAt (u : Upc) (i : Instr) : Bool :=
  match u with
  | .idle => false
  | .run k => microAt k == i

end Sys2Proof.Machine
end

