-- ==== Sys2Proof/Machine/State.lean ====
section
/-! DEFINITION. The state of the touch protocol engine: its eight registers (spec/10_state.md R24 to R32),
the parameters, and the environment as plain data (requests, bus answers, outputs). -/

namespace Sys2Proof.Machine

/-- One step's cause (R6, R7): an event of the environment, the interrupt agent or the consumer; a turn
of the polling agent; or a payload shown to the Status Decoder alone (log 12, log 13). -/
inductive Request where
  | reset
  | irq
  | poll
  | take
  | query
  | turn
  | probe (sw : BitVec 32)
deriving DecidableEq, Repr

/-- One line of the trace, in the terms of the notation R104 (log 18): the operations invoked (`reset`,
`irq`, `poll`) and what the block drives on its outputs. `rd` and `wr` carry the environment's answer;
`settle` is `Settle()` (R74); `pollDone` is POLL's return, `poll_res` (R44); `decoded` is the StatusWord the
Status Decoder shows. -/
inductive TraceLine where
  | reset
  | irq
  | poll
  | rd (dev : Nat) (reg : BitVec 16) (n : Nat) (answer : BusAnswer)
  | wr (dev : Nat) (reg : BitVec 16) (p0 p1 : Byte) (ok : Bool)
  | settle (microseconds : Nat)
  | pub (snap : Snapshot)
  | take (snap : Snapshot)
  | query (q : QueryResult)
  | pollDone (res : Result)
  | decoded (st : StatusWord)
deriving DecidableEq, Repr

/-- Faults: none. "A failure is ordinary behaviour of this hardware with a defined next state; it is not
a model fault. The hardware has no undefined behaviour of its own" (R13; log 23). -/
inductive Fault where
deriving DecidableEq, Repr

/-- Refusals. All are safe: the model takes no step where the spec gives none. -/
inductive Refusal where
  /-- An instruction with no meaning yet, raised by `exec`'s arm. Safe. No arm raises it. -/
  | notModelled (mnemonic : String)
  /-- POLL while a cycle is in flight (R287, U14), raised by POLL. Safe. -/
  | pollInFlight
  /-- The environment answered a read with more bytes than asked (R62, U7), raised by RDST, RDPT and
  their bus commands. Safe. -/
  | answerTooLong
  /-- A micro-op, a branch selector or a bus command executed where the micro-program does not hold it
  (R141), raised by their meanings, never by `step`. Safe. -/
  | notAtThisIndex
  /-- A branch selector executed with a payload that does not select its row (R96), raised by the branch
  meanings, never by `step`. Safe. -/
  | rowNotSelected
  /-- CMD_RD_POINTS with a count other than the current chunk size (R102), raised by its meaning, never
  by `step`. Safe. -/
  | countNotChunk
  /-- A fetched word that is no instruction, raised by `step`. No state reaches it (R142). Safe. -/
  | undecodable
deriving DecidableEq, Repr

/-- The machine. `latch` to `res` are the eight registers of R24; `cfg` is the parameters (R8), which no
step changes (R43); `inbox`, `answers`, `fresh` and `trace` are the model's own (INVENTORY.md). -/
structure State where
  cfg : Config
  latch : Bool
  tb : TouchReport
  upc : Upc
  sw : BitVec 32
  rem : BitVec 16
  off : BitVec 16
  scratch : List Byte
  res : Result
  inbox : List Request
  answers : List BusAnswer
  fresh : Nat
  trace : List TraceLine
deriving DecidableEq, Repr

/-- `RES` after RESET: `{NO_EVENT, 0, 0}` (R47). -/
def resultNone : Result := { code := .noEvent, branch := none, loc := 0 }

/-- The machine right after reset (R45, R46, R47), with the parameters of `REF` (log 2), nothing
requested, answered or driven yet, and 0 in the registers R47 leaves unspecified (DESIGN CHOICE, log 6). -/
def State.reset : State where
  cfg := Config.ref
  latch := false
  tb := { points := List.replicate Config.ref.maxPoints TouchPoint.zero
          touchNum := 0
          metadata := Metadata.zero }
  upc := .idle
  sw := 0
  rem := 0
  off := 0
  scratch := List.replicate Config.ref.scratchLen 0
  res := resultNone
  inbox := []
  answers := []
  fresh := 0
  trace := []

end Sys2Proof.Machine
end

