-- ==== Sys2Proof/Machine/Ops.lean ====
section
/-! DEFINITION. The named operations the meanings share: the bus primitives (spec/20_memory.md R62, R63,
R74), raising a failure (spec/60_exceptions.md R248) and starting a cycle, and moving through the
micro-program. -/

namespace Sys2Proof.Machine

/-- The outcome of one step. -/
abbrev StepOutcome := Host.Outcome State Fault Refusal

/-- Add one line to the trace. -/
def emit (line : TraceLine) (s : State) : State := { s with trace := line :: s.trace }

/-- The environment's free answer to transaction `c` for `n` bytes: `Fail`, or at most `n` bytes
(R6, R62, U5; log 9). -/
def freeAnswer (c n : Nat) : BusAnswer :=
  if Config.freeOk c then .ok ((Config.freeBytes c n).take n) else .fail

/-- The environment's answer to the next transaction: the oldest queued answer, else a free one. Every
transaction is answered (R64; log 9). -/
def takeAnswer (n : Nat) (s : State) : BusAnswer × State :=
  match s.answers with
  | a :: rest => (a, { s with answers := rest })
  | [] => (freeAnswer s.fresh n, { s with fresh := s.fresh + 1 })

/-- The next answer is one that `BusRead(_, _, n)` can return: no more than `n` bytes (R62, U7). -/
def answerFits (n : Nat) (s : State) : Bool :=
  match s.answers with
  | .ok bytes :: _ => decide (bytes.length ≤ n)
  | _ => true

/-- `BusRead(DEV_ADDR, reg, n)` (R62). -/
def busRead (reg : BitVec 16) (n : Nat) (s : State) : BusAnswer × State :=
  let p := takeAnswer n s
  (p.1, emit (.rd s.cfg.devAddr reg n p.1) p.2)

/-- A read's bytes when it succeeded in full; a short read is a failure (R65). -/
def completeBytes (a : BusAnswer) (n : Nat) : Option (List Byte) :=
  match a with
  | .fail => none
  | .ok bytes => if n ≤ bytes.length then some bytes else none

/-- A write's success (R63). -/
def writeOk (a : BusAnswer) : Bool :=
  match a with
  | .fail => false
  | .ok _ => true

/-- `BusWrite(DEV_ADDR, reg, p0 p1)` and then `Settle()`, which follows every control write, a failed
one too (R63, R74, R159). -/
def busWrite (reg : BitVec 16) (pl : Payload) (s : State) : Bool × State :=
  let p := takeAnswer 0 s
  (writeOk p.1,
    emit (.settle s.cfg.tSettle) (emit (.wr s.cfg.devAddr reg pl.p0 pl.p1 (writeOk p.1)) p.2))

/-- `raise F(at)` (R248): `RES <- {F, RES.branch, at}`, `upc <- IDLE`, nothing else; POLL returns `RES`. -/
def raiseFailure (f : ResCode) (loc : Fin 23) (s : State) : State :=
  let r : Result := { code := f, branch := s.res.branch, loc := loc }
  { s with res := r, upc := .idle, trace := .pollDone r :: s.trace }

/-- The start of an acquisition cycle (R140). It is also the recovery from a failure: there is no return
operation, the next POLL starts anew (R251). -/
def startCycle (s : State) : State :=
  { s with
    res := { code := .running, branch := none, loc := 0 }
    upc := .run 0
    trace := .poll :: s.trace }

/-- POLL with nothing latched: it returns at once (R140). -/
def returnNoEvent (s : State) : State :=
  { s with res := resultNone, trace := .pollDone resultNone :: .poll :: s.trace }

/-- `upc <- upc + 1`. -/
def advance (s : State) : State := { s with upc := nextUpc s.upc }

/-- The body of the four control-write micro-ops (R159). -/
def controlWrite (reg : BitVec 16) (pl : Payload) (s : State) : State :=
  let p := busWrite reg pl s
  if p.1 then advance p.2 else raiseFailure .failWrite (upcIndex s.upc) p.2

/-- What DISP does once the payload `sw` has selected branch `b` (R145). -/
def enterBranch (b : Branch) (sw : BitVec 32) (s : State) : State :=
  { s with
    res := { s.res with branch := some b }
    upc := .run (branchEntry b)
    rem := if b = .b4 then (decodeStatus sw).pendingLength else s.rem
    off := if b = .b4 then 0 else s.off }

/-- A micro-op acts where the micro-program holds it (R141, R142; log 15). -/
def atIndexOf (op : Instr) (s : State) (act : StepOutcome) : StepOutcome :=
  if holdsAt s.upc op then act else .refused .notAtThisIndex

/-- A read acts on an answer of at most `n` bytes (R62, U7; log 10). -/
def ifAnswerFits (n : Nat) (s : State) (next : State) : StepOutcome :=
  if answerFits n s then .next next else .refused .answerTooLong

end Sys2Proof.Machine
end

