-- ==== Sys2Proof/Machine/Branches.lean ====
section
/-! DEFINITION. The seven branch selectors of the decode map (spec/30_encoding.md R96): what the dispatch
step does when the status payload selects the row (spec/41_command_sequencer.md R145, R150 to R155). -/

namespace Sys2Proof.Machine

/-- A selector row at the dispatch step: it acts where the micro-program holds DISP (R141) and the payload
selects the row (R96; log 16). -/
def takeRow (row : Instr) (b : Branch) (sw : BitVec 32) (s : State) : StepOutcome :=
  atIndexOf .disp s
    (if selectRow s.cfg sw = row then .next (enterBranch b sw s) else .refused .rowNotSelected)

/-- BRANCH1, `in_boot_rom` (R150). -/
def execBranch1 (sw : BitVec 32) (s : State) : StepOutcome := takeRow (.branch1 sw) .b1 sw s

/-- BRANCH2, `in_cpu_state and not SAMPLING_PRED(s)` (R151). -/
def execBranch2 (sw : BitVec 32) (s : State) : StepOutcome := takeRow (.branch2 sw) .b2 sw s

/-- BRANCH3, `cpu_running and pending_length = 0` (R152). -/
def execBranch3 (sw : BitVec 32) (s : State) : StepOutcome := takeRow (.branch3 sw) .b3 sw s

/-- BRANCH4.PT, `pt_exist` (R153). -/
def execBranch4Pt (sw : BitVec 32) (s : State) : StepOutcome := takeRow (.branch4Pt sw) .b4 sw s

/-- BRANCH4.GES, `gesture` (R153). -/
def execBranch4Ges (sw : BitVec 32) (s : State) : StepOutcome := takeRow (.branch4Ges sw) .b4 sw s

/-- BRANCH5, `cpu_running and aux` (R154). -/
def execBranch5 (sw : BitVec 32) (s : State) : StepOutcome := takeRow (.branch5 sw) .b5 sw s

/-- BRANCH6, nothing matched (R155). -/
def execBranch6 (sw : BitVec 32) (s : State) : StepOutcome := takeRow (.branch6 sw) .b6 sw s

end Sys2Proof.Machine
end

