-- ==== Sys2Proof/Machine/Commands.lean ====
section
/-! DEFINITION. The six bus commands (spec/30_encoding.md R102): the one bus transaction that the issuing
micro-op makes, with the environment's answer, and for a control write the settle delay. What the
micro-op then does with the answer is the micro-op's (`MicroOps.lean`); the registers do not change
here (log 16). -/

namespace Sys2Proof.Machine

/-- CMD_RD_STATUS, issued by RDST: `BusRead(DEV_ADDR, REG_STATUS, 4)` (R93, R144). -/
def execCmdRdStatus (s : State) : StepOutcome :=
  atIndexOf .rdst s (ifAnswerFits 4 s (busRead s.cfg.regStatus 4 s).2)

/-- CMD_RD_POINTS, issued by RDPT: `BusRead(DEV_ADDR, REG_POINT_DATA, n)` with `n = min(REM, MAX_XFER)`
(R93, R181); never with a count of 0 (R182). -/
def execCmdRdPoints (n : BitVec 16) (s : State) : StepOutcome :=
  atIndexOf .rdpt s
    (if n.toNat = chunkSize s.cfg s.rem ∧ n ≠ 0 then
      ifAnswerFits n.toNat s (busRead s.cfg.regPointData n.toNat s).2
    else .refused .countNotChunk)

/-- CMD_CLEAR_INT, issued by WCLR (R92, R147). -/
def execCmdClearInt (s : State) : StepOutcome :=
  atIndexOf .wclr s (.next (busWrite s.cfg.regClearInt s.cfg.plClearInt s).2)

/-- CMD_START_CPU, issued by WCPU (R92, R148). -/
def execCmdStartCpu (s : State) : StepOutcome :=
  atIndexOf .wcpu s (.next (busWrite s.cfg.regStartCpu s.cfg.plStartCpu s).2)

/-- CMD_POINT_MODE, issued by WPTM (R92, R149). -/
def execCmdPointMode (s : State) : StepOutcome :=
  atIndexOf .wptm s (.next (busWrite s.cfg.regPointMode s.cfg.plPointMode s).2)

/-- CMD_START_SAMPLING, issued by WSTA (R92, R156). -/
def execCmdStartSampling (s : State) : StepOutcome :=
  atIndexOf .wsta s (.next (busWrite s.cfg.regStartSampling s.cfg.plStartSampling s).2)

end Sys2Proof.Machine
end

