-- ==== Sys2Proof/Machine/Decoder.lean ====
section
/-! DEFINITION. DECODE, the Status Decoder as an operation of its own (spec/40_status_decoder.md R120). -/

namespace Sys2Proof.Machine

/-- DECODE of the payload `sw` (R120): the StatusWord is shown at the decoder's output; no register is
read or written (R121). -/
def execDecode (sw : BitVec 32) (s : State) : StepOutcome :=
  .next (emit (.decoded (decodeStatus sw)) s)

end Sys2Proof.Machine
end

