-- ==== Sys2Proof/Machine/Events.lean ====
section
/-! DEFINITION. The five operations the environment invokes: RESET, TAKE, POLL, IRQ and QUERY
(spec/43_buffer_and_latch.md, spec/41_command_sequencer.md R140, spec/70_reset_and_hazards.md R280). -/

namespace Sys2Proof.Machine

/-- RESET (R280), in any state (R281). `SW`, `REM`, `OFF` and `SCRATCH` become free values (R47; log 7);
no bus transaction is issued. In flight, the cycle is abandoned and its POLL never returns: no `pollDone`
line (DESIGN CHOICE, log 25; the spec says only that no failure is reported). -/
def execReset (s : State) : StepOutcome :=
  .next (emit .reset { s with
    latch := false
    tb := emptyReport s.cfg
    upc := .idle
    res := resultNone
    sw := Config.freeSw s.fresh
    rem := Config.freeRem s.fresh
    off := Config.freeOff s.fresh
    scratch := (List.range s.cfg.scratchLen).map (Config.freeScratch s.fresh)
    fresh := s.fresh + 1 })

/-- Empty the touch buffer's count, all that TAKE writes (R214). -/
def clearCount (s : State) : State := { s with tb := { s.tb with touchNum := 0 } }

/-- TAKE (R214): hand out a snapshot and clear the count, in one step. -/
def execTake (s : State) : StepOutcome :=
  .next (emit (.take (snapshotOf s.tb)) (clearCount s))

/-- POLL (R140): refused while a cycle is in flight (R287); with the latch clear it returns `NO_EVENT`;
else it starts a cycle, whose micro-ops are the polling agent's next steps. The latch is tested, not
cleared (R157). -/
def execPoll (s : State) : StepOutcome :=
  match s.upc with
  | .run _ => .refused .pollInFlight
  | .idle => .next (if s.latch then startCycle s else returnNoEvent s)

/-- IRQ (R210): `LATCH <- 1` and nothing else. -/
def execIrq (s : State) : StepOutcome := .next (emit .irq { s with latch := true })

/-- QUERY (R218): TAKE, then its projection is handed out. -/
def execQuery (s : State) : StepOutcome :=
  .next (emit (.query (queryOf (snapshotOf s.tb))) (clearCount s))

end Sys2Proof.Machine
end

