-- ==== Sys2Proof/Machine/MicroOps.lean ====
section
/-! DEFINITION. The ten micro-ops: the Command Sequencer's (spec/41_command_sequencer.md) and the Report
Assembler's (spec/42_report_assembler.md). -/

namespace Sys2Proof.Machine

/-- RDST's action on the state (R144): a failed or short read raises `FAIL_STATUS(0)` and leaves `SW`. -/
def readStatus (s : State) : State :=
  let p := busRead s.cfg.regStatus 4 s
  match completeBytes p.1 4 with
  | none => raiseFailure .failStatus 0 p.2
  | some bytes => { p.2 with sw := packStatus bytes, upc := .run 1 }

/-- RDST (R144). -/
def execRdst (s : State) : StepOutcome := atIndexOf .rdst s (ifAnswerFits 4 s (readStatus s))

/-- DISP (R145): decode `SW`, select the branch (R146), enter it. -/
def execDisp (s : State) : StepOutcome :=
  atIndexOf .disp s (.next (enterBranch (branchOf s.cfg (decodeStatus s.sw)) s.sw s))

/-- WCLR, the clear-interrupt write (R147). It does not touch `LATCH`. -/
def execWclr (s : State) : StepOutcome :=
  atIndexOf .wclr s (.next (controlWrite s.cfg.regClearInt s.cfg.plClearInt s))

/-- WCPU, the start-CPU write (R148). -/
def execWcpu (s : State) : StepOutcome :=
  atIndexOf .wcpu s (.next (controlWrite s.cfg.regStartCpu s.cfg.plStartCpu s))

/-- WPTM, the arm-point-mode write (R149). -/
def execWptm (s : State) : StepOutcome :=
  atIndexOf .wptm s (.next (controlWrite s.cfg.regPointMode s.cfg.plPointMode s))

/-- WSTA, the start-sampling write (R156). -/
def execWsta (s : State) : StepOutcome :=
  atIndexOf .wsta s (.next (controlWrite s.cfg.regStartSampling s.cfg.plStartSampling s))

/-- One chunk of RDPT (R181), when `REM` is not 0: a failed or short read raises `FAIL_DATA(14)`; else the
bytes that fit are stored and the counters move; `upc` stays. -/
def readChunk (s : State) : State :=
  let c := chunkSize s.cfg s.rem
  let p := busRead s.cfg.regPointData c s
  match completeBytes p.1 c with
  | none => raiseFailure .failData 14 p.2
  | some bytes =>
    { p.2 with
      scratch := storeChunk s.scratch s.off.toNat bytes
      off := s.off + BitVec.ofNat 16 c
      rem := s.rem - BitVec.ofNat 16 c }

/-- RDPT (R181): with `REM = 0` the payload is complete and no read is made (R182). -/
def execRdpt (s : State) : StepOutcome :=
  atIndexOf .rdpt s
    (if s.rem = 0 then .next { s with upc := .run 15 }
     else ifAnswerFits (chunkSize s.cfg s.rem) s (readChunk s))

/-- PUBL (R189): the touch buffer is replaced as a whole by the report assembled from `SW` and `SCRATCH`. -/
def execPubl (s : State) : StepOutcome :=
  atIndexOf .publ s
    (.next (emit (.pub (snapshotOf (assembleReport s.cfg s.sw s.scratch)))
      { s with tb := assembleReport s.cfg s.sw s.scratch, upc := .run 16 }))

/-- LCLR (R157): `LATCH <- 0`. -/
def execLclr (s : State) : StepOutcome :=
  atIndexOf .lclr s (.next (advance { s with latch := false }))

/-- DONE's action on the state (R158): the cycle ends with `OK` and POLL returns `RES`. -/
def finishCycle (s : State) : State :=
  let r : Result := { s.res with code := .ok }
  { s with res := r, upc := .idle, trace := .pollDone r :: s.trace }

/-- DONE (R158). -/
def execDone (s : State) : StepOutcome := atIndexOf .done s (.next (finishCycle s))

end Sys2Proof.Machine
end

