-- ==== Sys2Proof/Machine/Dispatch.lean ====
section
/-! DEFINITION. `exec`: one arm per row of spec/opcode_table.json. -/

namespace Sys2Proof.Machine

/-- The meaning of each instruction. -/
def exec (i : Instr) (s : State) : Host.Outcome State Fault Refusal :=
  match i with
  -- events
  | .reset => Sys2Proof.Machine.execReset s
  | .take => Sys2Proof.Machine.execTake s
  | .poll => Sys2Proof.Machine.execPoll s
  | .irq => Sys2Proof.Machine.execIrq s
  | .query => Sys2Proof.Machine.execQuery s
  -- status decoder
  | .decode sw => Sys2Proof.Machine.execDecode sw s
  -- branch selectors
  | .branch1 sw => Sys2Proof.Machine.execBranch1 sw s
  | .branch2 sw => Sys2Proof.Machine.execBranch2 sw s
  | .branch3 sw => Sys2Proof.Machine.execBranch3 sw s
  | .branch4Pt sw => Sys2Proof.Machine.execBranch4Pt sw s
  | .branch4Ges sw => Sys2Proof.Machine.execBranch4Ges sw s
  | .branch5 sw => Sys2Proof.Machine.execBranch5 sw s
  | .branch6 sw => Sys2Proof.Machine.execBranch6 sw s
  -- micro-ops
  | .rdst => Sys2Proof.Machine.execRdst s
  | .disp => Sys2Proof.Machine.execDisp s
  | .wclr => Sys2Proof.Machine.execWclr s
  | .wcpu => Sys2Proof.Machine.execWcpu s
  | .wptm => Sys2Proof.Machine.execWptm s
  | .wsta => Sys2Proof.Machine.execWsta s
  | .rdpt => Sys2Proof.Machine.execRdpt s
  | .publ => Sys2Proof.Machine.execPubl s
  | .lclr => Sys2Proof.Machine.execLclr s
  | .done => Sys2Proof.Machine.execDone s
  -- bus commands
  | .cmdRdStatus => Sys2Proof.Machine.execCmdRdStatus s
  | .cmdRdPoints n => Sys2Proof.Machine.execCmdRdPoints n s
  | .cmdClearInt => Sys2Proof.Machine.execCmdClearInt s
  | .cmdStartCpu => Sys2Proof.Machine.execCmdStartCpu s
  | .cmdPointMode => Sys2Proof.Machine.execCmdPointMode s
  | .cmdStartSampling => Sys2Proof.Machine.execCmdStartSampling s

end Sys2Proof.Machine
end

