-- ==== Sys2Proof/Machine/Fetch.lean ====
section
/-! DEFINITION. Which word the next step runs: the oldest request, or the micro-op at `upc` when it is the
polling agent's turn (spec/00_scope.md R7; spec/41_command_sequencer.md R142; log 12). -/

namespace Sys2Proof.Machine

/-- The micro-op code at `upc`, when a cycle is in flight (R142). -/
def microWord (s : State) : Option (WordKind × List Byte) :=
  match s.upc with
  | .idle => none
  | .run k => some (encode s.cfg (microAt k))

/-- The word a request puts before the decoder. -/
def requestWord (r : Request) (s : State) : Option (WordKind × List Byte) :=
  match r with
  | .reset => some (encode s.cfg .reset)
  | .irq => some (encode s.cfg .irq)
  | .poll => some (encode s.cfg .poll)
  | .take => some (encode s.cfg .take)
  | .query => some (encode s.cfg .query)
  | .turn => microWord s
  | .probe sw => some (encode s.cfg (.decode sw))

/-- The word of the next step. With nothing requested the polling agent moves on with the cycle in
flight; `none` when there is nothing to do. -/
def fetch (s : State) : Option (WordKind × List Byte) :=
  match s.inbox with
  | r :: _ => requestWord r s
  | [] => microWord s

/-- The request of this step is used up. -/
def consume (s : State) : State := { s with inbox := s.inbox.tail }

/-- Run a decoded instruction, or refuse a word that is none. -/
def runDecoded (run : Instr → StepOutcome) (d : Except DecodeError Instr) : StepOutcome :=
  match d with
  | .ok i => run i
  | .error _ => .refused .undecodable

/-- Make it the polling agent's turn at index `k`. -/
def atMicroIndex (k : Fin 23) (s : State) : State :=
  { s with inbox := .turn :: s.inbox, upc := .run k }

/-- Put an instruction where the next step takes it: an event as the oldest request; a micro-op as the
polling agent's turn at the first index that holds it; a branch selector as the dispatch of its payload;
a bus command as the turn of the micro-op that issues it (log 14). -/
def placeInstr (i : Instr) (s : State) : State :=
  match i with
  | .reset => { s with inbox := .reset :: s.inbox }
  | .take => { s with inbox := .take :: s.inbox }
  | .poll => { s with inbox := .poll :: s.inbox }
  | .irq => { s with inbox := .irq :: s.inbox }
  | .query => { s with inbox := .query :: s.inbox }
  | .decode sw => { s with inbox := .probe sw :: s.inbox }
  | .branch1 sw | .branch2 sw | .branch3 sw | .branch4Pt sw | .branch4Ges sw | .branch5 sw
  | .branch6 sw => { atMicroIndex 1 s with sw := sw }
  | .rdst | .cmdRdStatus => atMicroIndex 0 s
  | .disp => atMicroIndex 1 s
  | .wclr | .cmdClearInt => atMicroIndex 2 s
  | .wcpu | .cmdStartCpu => atMicroIndex 3 s
  | .lclr => atMicroIndex 4 s
  | .done => atMicroIndex 5 s
  | .wptm | .cmdPointMode => atMicroIndex 6 s
  | .wsta | .cmdStartSampling => atMicroIndex 7 s
  | .rdpt => atMicroIndex 14 s
  | .cmdRdPoints n => { atMicroIndex 14 s with rem := n }
  | .publ => atMicroIndex 15 s

/-- A word of the operation table put where the next step takes it; a word that is no instruction of the
table leaves the state as it is. -/
def placeTableWord (nbits w : Nat) (s : State) : State :=
  match decodeTableWord nbits w with
  | some i => placeInstr i s
  | none => s

end Sys2Proof.Machine
end

