-- ==== Sys2Proof/Machine/Step.lean ====
section
/-! DEFINITION. One step of the machine (spec/00_scope.md R7): fetch the next word, decode it, execute it. -/

namespace Sys2Proof.Machine

/-- One step. With nothing requested and no cycle in flight the block idles: the state stays (log 12). -/
def step (s : State) : Host.Outcome State Fault Refusal :=
  match fetch s with
  | none => .next (consume s)
  | some w => runDecoded (fun i => exec i (consume s)) (decode s.cfg w.1 w.2)

/-- The state with a word of spec/opcode_table.json placed where the next step takes it (log 14). -/
def State.withFetchWord (s : State) (nbits w : Nat) : State := placeTableWord nbits w s

end Sys2Proof.Machine
end

