-- ==== Sys2Proof/Safety.lean ====
section
/-! DEFINITION. What a good state and a good trace are, in the terms the statements use: the invariants of
spec/10_state.md R23 and what spec/41_command_sequencer.md fixes of a cycle in flight. -/

namespace Sys2Proof.Machine

/-- The indices before the branch's LCLR, where the latch a cycle started with is still set
(R141, R249). Branch 6 has no LCLR (R155). -/
def latchHeldAt (k : Fin 23) : Bool :=
  match k.val with
  | 5 | 10 | 13 | 18 | 21 => false
  | _ => true

/-- The branch whose run an index belongs to; none for the two entry indices (R141). -/
def branchAt (k : Fin 23) : Option Branch :=
  if k.val < 2 then none
  else if k.val < 6 then some .b1
  else if k.val < 11 then some .b2
  else if k.val < 14 then some .b3
  else if k.val < 19 then some .b4
  else if k.val < 22 then some .b5
  else some .b6

/-- The invariant of the machine. `slots`, `count`: R21, R23 (I-1). `scratchLen`: R31. `running`, `resLoc`,
`resBranch`: `RES` tells a cycle in flight (R32, R40). `latch`: R249. `chosen`: the run is that of the branch
`SW` selects (R161). `payload`, `complete`: R30. `failed`, `unmatched`: the latch stays set after a
failure and after branch 6 (R249, R155). -/
structure Inv (s : State) : Prop where
  slots : s.tb.points.length = s.cfg.maxPoints
  count : s.tb.touchNum ≤ s.cfg.maxPoints
  scratchLen : s.scratch.length = s.cfg.scratchLen
  running : s.upc ≠ .idle ↔ s.res.code = .running
  resLoc : isFailure s.res.code = false → s.res.loc = 0
  resBranch : ∀ k, s.upc = .run k → s.res.branch = branchAt k
  chosen : ∀ k, s.upc = .run k → 2 ≤ k.val →
    branchAt k = some (branchOf s.cfg (decodeStatus s.sw))
  latch : ∀ k, s.upc = .run k → latchHeldAt k = true → s.latch = true
  payload : ∀ k, s.upc = .run k → branchAt k = some .b4 →
    s.off.toNat + s.rem.toNat = (decodeStatus s.sw).pendingLength.toNat
  complete : ∀ k, s.upc = .run k → branchAt k = some .b4 → 15 ≤ k.val → s.rem = 0
  failed : isFailure s.res.code = true → s.latch = true
  unmatched : s.res.code = .ok → s.res.branch = some .b6 → s.latch = true

/-- The lines of the trace (newest first) since the last POLL was invoked. -/
def sincePoll : List TraceLine → List TraceLine
  | [] => []
  | .poll :: _ => []
  | line :: rest => line :: sincePoll rest

/-- A control write as the bus sees it: register, the two payload bytes, success. -/
abbrev BusWriteRecord := BitVec 16 × Byte × Byte × Bool

/-- The control writes among some lines, in the same order. -/
def writesOf (lines : List TraceLine) : List BusWriteRecord :=
  lines.filterMap fun line =>
    match line with
    | .wr _ reg p0 p1 ok => some (reg, p0, p1, ok)
    | _ => none

/-- A read as the bus sees it: register, count, and whether it was answered in full (R62, R65). -/
abbrev BusReadRecord := BitVec 16 × Nat × Bool

/-- The reads among some lines, in the same order. -/
def readsOf (lines : List TraceLine) : List BusReadRecord :=
  lines.filterMap fun line =>
    match line with
    | .rd _ reg n answer => some (reg, n, (completeBytes answer n).isSome)
    | _ => none

/-- The control writes of the current or last cycle, oldest first. -/
def cycleWrites (s : State) : List BusWriteRecord := (writesOf (sincePoll s.trace)).reverse

/-- The reads of the current or last cycle, oldest first. -/
def cycleReads (s : State) : List BusReadRecord := (readsOf (sincePoll s.trace)).reverse

/-- A control write of a command, with its outcome. -/
def writeRecord (reg : BitVec 16) (pl : Payload) (ok : Bool) : BusWriteRecord :=
  (reg, pl.p0, pl.p1, ok)

/-- The clear-interrupt write, succeeded. -/
def wroteClear (cfg : Config) : BusWriteRecord := writeRecord cfg.regClearInt cfg.plClearInt true
/-- The start-CPU write, succeeded. -/
def wroteCpu (cfg : Config) : BusWriteRecord := writeRecord cfg.regStartCpu cfg.plStartCpu true
/-- The arm-point-mode write, succeeded. -/
def wroteMode (cfg : Config) : BusWriteRecord := writeRecord cfg.regPointMode cfg.plPointMode true
/-- The start-sampling write, succeeded. -/
def wroteSampling (cfg : Config) : BusWriteRecord :=
  writeRecord cfg.regStartSampling cfg.plStartSampling true

/-- The control writes of a successful cycle, by branch, in order (R150 to R155, R162). -/
def branchWrites (cfg : Config) (b : Branch) : List BusWriteRecord :=
  match b with
  | .b1 => [wroteClear cfg, wroteCpu cfg]
  | .b2 => [wroteMode cfg, wroteSampling cfg, wroteClear cfg]
  | .b3 => [wroteClear cfg]
  | .b4 => [wroteClear cfg]
  | .b5 => [wroteClear cfg]
  | .b6 => []

/-- How many control writes of its branch a cycle at index `k` has made (R141). -/
def writesMadeAt (k : Fin 23) : Nat :=
  match k.val with
  | 3 | 7 | 12 | 13 | 17 | 18 | 20 | 21 => 1
  | 4 | 5 | 8 => 2
  | 9 | 10 => 3
  | _ => 0

/-- The branch list an index belongs to, empty in the entry. -/
def runWrites (cfg : Config) (k : Fin 23) : List BusWriteRecord :=
  match branchAt k with
  | none => []
  | some b => branchWrites cfg b

/-- The same write, failed. -/
def failedWrite (w : BusWriteRecord) : BusWriteRecord := (w.1, w.2.1, w.2.2.1, false)

/-- "each branch issues exactly its writes and no others": in flight, the writes since POLL are the ones
the branch's list has before this index; after a cycle that ended with `OK`, its branch's whole list; after
a failed write at index `at`, the list up to and with the write that failed; after a failed read, none
(R150 to R155, R159, R160, R161, R162). -/
structure WritesInOrder (s : State) : Prop where
  inFlight : ∀ k, s.upc = .run k →
    cycleWrites s = (runWrites s.cfg k).take (writesMadeAt k)
  afterOk : s.res.code = .ok → ∃ b, s.res.branch = some b ∧ cycleWrites s = branchWrites s.cfg b
  afterFailedWrite : s.res.code = .failWrite →
    cycleWrites s = (runWrites s.cfg s.res.loc).take (writesMadeAt s.res.loc) ++
      (((runWrites s.cfg s.res.loc).drop (writesMadeAt s.res.loc)).take 1).map failedWrite
  afterFailedRead : s.res.code = .failStatus ∨ s.res.code = .failData → cycleWrites s = []

/-- The status read, with its outcome. -/
def statusRead (cfg : Config) (ok : Bool) : BusReadRecord := (cfg.regStatus, 4, ok)

/-- A read of `n` payload bytes, with its outcome. -/
def payloadRead (cfg : Config) (n : Nat) (ok : Bool) : BusReadRecord := (cfg.regPointData, n, ok)

/-- The sizes of the chunks that make up `total` bytes: `MAX_XFER` each, and the rest last (R69, R103). -/
def chunkSizes (cfg : Config) (total : Nat) : List Nat :=
  List.replicate (total / cfg.maxXfer) cfg.maxXfer ++
    (if total % cfg.maxXfer = 0 then [] else [total % cfg.maxXfer])

/-- The payload reads, all answered in full, that fetch `total` bytes. -/
def chunkReads (cfg : Config) (total : Nat) : List BusReadRecord :=
  (chunkSizes cfg total).map fun n => payloadRead cfg n true

/-- All reads of the branch's row, answered in full: one status read, and in branch 4 the whole payload
(R162). -/
def rowReads (s : State) : List BusReadRecord :=
  statusRead s.cfg true ::
    (if s.res.branch = some .b4 then
      chunkReads s.cfg (decodeStatus s.sw).pendingLength.toNat else [])

/-- The reads of a cycle: one status read, and in branch 4 the payload in chunks (R69, R103, R162, R181).
While bytes remain, every chunk read so far was full. A cycle that ended with `OK` or with a failed write (which
comes after its run's reads) has made all reads of its row; a failed cycle otherwise a prefix of them ending with
the read that failed: the status read alone, or the full chunks so far and the failed one, of the size the
bytes still to read give it. -/
structure ReadsInOrder (s : State) : Prop where
  entry : s.upc = .run 0 → cycleReads s = []
  plain : ∀ k, s.upc = .run k → 1 ≤ k.val → branchAt k ≠ some .b4 →
    cycleReads s = [statusRead s.cfg true]
  assembler : ∀ k, s.upc = .run k → branchAt k = some .b4 →
    cycleReads s = statusRead s.cfg true :: chunkReads s.cfg s.off.toNat ∧
    (s.rem ≠ 0 → s.off.toNat % s.cfg.maxXfer = 0)
  afterOk : s.res.code = .ok → cycleReads s = rowReads s
  afterFailedWrite : s.res.code = .failWrite → cycleReads s = rowReads s
  afterFailedStatus : s.res.code = .failStatus → cycleReads s = [statusRead s.cfg false]
  afterFailedData : s.res.code = .failData → s.res.branch = some .b4 ∧ s.rem ≠ 0 ∧
    s.off.toNat + s.rem.toNat = (decodeStatus s.sw).pendingLength.toNat ∧
    s.off.toNat % s.cfg.maxXfer = 0 ∧
    cycleReads s = statusRead s.cfg true :: chunkReads s.cfg s.off.toNat ++
      [payloadRead s.cfg (chunkSize s.cfg s.rem) false]

/-- Every control write is followed at once by a settle delay of at least `t` (R74, R285). The trace is
newest first, so the delay stands before the write. -/
def settled (t : Nat) : List TraceLine → Bool
  | [] => true
  | .wr _ _ _ _ _ :: _ => false
  | .settle d :: .wr _ _ _ _ _ :: rest => decide (t ≤ d) && settled t rest
  | _ :: rest => settled t rest

/-- A bus line is one of the six commands of R102; other lines are no bus transactions. -/
def isCommandLine (cfg : Config) (line : TraceLine) : Prop :=
  match line with
  | .rd dev reg n _ => dev = cfg.devAddr ∧
      ((reg = cfg.regStatus ∧ n = 4) ∨ (reg = cfg.regPointData ∧ 1 ≤ n ∧ n ≤ cfg.maxXfer))
  | .wr dev reg p0 p1 _ => dev = cfg.devAddr ∧
      ((reg = cfg.regClearInt ∧ p0 = cfg.plClearInt.p0 ∧ p1 = cfg.plClearInt.p1) ∨
       (reg = cfg.regStartCpu ∧ p0 = cfg.plStartCpu.p0 ∧ p1 = cfg.plStartCpu.p1) ∨
       (reg = cfg.regPointMode ∧ p0 = cfg.plPointMode.p0 ∧ p1 = cfg.plPointMode.p1) ∨
       (reg = cfg.regStartSampling ∧ p0 = cfg.plStartSampling.p0 ∧ p1 = cfg.plStartSampling.p1))
  | _ => True

/-- A line of the trace that is a bus transaction. -/
def isBusLine (line : TraceLine) : Bool :=
  match line with
  | .rd _ _ _ _ | .wr _ _ _ _ _ => true
  | _ => false

/-- What an acquisition cycle works with: everything but the latch, the touch buffer, the requests and the
trace. Two states that agree on it are one state to the sequencer and the assembler (R164). -/
structure SameAcquisition (s t : State) : Prop where
  cfg : s.cfg = t.cfg
  upc : s.upc = t.upc
  sw : s.sw = t.sw
  rem : s.rem = t.rem
  off : s.off = t.off
  scratch : s.scratch = t.scratch
  res : s.res = t.res
  answers : s.answers = t.answers
  fresh : s.fresh = t.fresh

end Sys2Proof.Machine
end

