-- ==== Sys2Proof/WellFormed.lean ====
section
/-! DEFINITION. Which instructions are well formed: a branch selector whose payload selects that row
(R96), and a payload read whose count is one the block can ask for (R69, R93). -/

namespace Sys2Proof

/-- Well-formedness of an instruction under a configuration. -/
def Instr.wf (cfg : Config) (i : Instr) : Bool :=
  match i with
  | .branch1 sw | .branch2 sw | .branch3 sw | .branch4Pt sw | .branch4Ges sw | .branch5 sw
  | .branch6 sw => selectRow cfg sw == i
  | .cmdRdPoints n => decide (1 ≤ n.toNat) && decide (n.toNat ≤ cfg.maxXfer)
  | .reset | .take | .poll | .irq | .query | .decode _ | .rdst | .disp | .wclr | .wcpu | .wptm
  | .wsta | .rdpt | .publ | .lclr | .done | .cmdRdStatus | .cmdClearInt | .cmdStartCpu
  | .cmdPointMode | .cmdStartSampling => true

end Sys2Proof
end

