-- ==== Sys2Proof/Certificates/Slice0/Obligations.lean ====
section
/-! DEFINITION. The statements for the provers. The fields `inbox`, `answers`, `fresh` and `trace` of the state
are the model's own record of the environment (log 9, 12, 18); every statement gives what becomes of them. -/

open Sys2Proof Sys2Proof.Machine

/-! ### Steps, words, decoding -/

/-- A step runs the decoded instruction: the request is used up and `exec` does the rest; with no word to
run, only a request for a turn is used up. The model's own step (log 12), no rule of the spec. -/
def Obligations.StepRunsTheDecodedWord : Prop :=
  (∀ (s : State) (kind : WordKind) (bytes : List Byte) (i : Instr),
    fetch s = some (kind, bytes) → decode s.cfg kind bytes = .ok i →
    step s = exec i { s with inbox := s.inbox.tail }) ∧
  (∀ s : State, fetch s = none → step s = .next { s with inbox := s.inbox.tail })

/-- Which word a step takes: the code of the oldest request (R106's numbering), and at the polling agent's
turn, or with nothing requested, the 4-bit code of the micro-op at `upc`: the 23 codes are R141's table in
R100's numbering. The order of agents is the model's (log 12, 13). -/
def Obligations.FetchTakesRequestOrMicroOp : Prop :=
  (∀ (s : State) (rest : List Request),
    (s.inbox = .reset :: rest → fetch s = some (.event, [8])) ∧
    (s.inbox = .take :: rest → fetch s = some (.event, [4])) ∧
    (s.inbox = .poll :: rest → fetch s = some (.event, [2])) ∧
    (s.inbox = .irq :: rest → fetch s = some (.event, [1])) ∧
    (s.inbox = .query :: rest → fetch s = some (.query, [4])) ∧
    (∀ b0 b1 b2 b3 : Byte, s.inbox = .probe (b3 ++ b2 ++ b1 ++ b0) :: rest →
      fetch s = some (.decoder, [b0, b1, b2, b3]))) ∧
  (∀ s : State, s.inbox = [] ∨ (∃ rest, s.inbox = .turn :: rest) →
    (s.upc = .idle → fetch s = none) ∧
    (∀ k, s.upc = .run k → fetch s = some (.uop,
      [([0, 1, 2, 3, 8, 9, 4, 5, 2, 8, 9, 2, 8, 9, 6, 7, 2, 8, 9, 2, 8, 9, 9] : List Byte).getD
        k.val 0])))

/-- Words written out from the spec: the event codes of R106, the micro-op codes of R100 and the status payloads of
V-BR. The last two clauses, an F-RD and an F-CW word under `REF`, are the model's: the spec gives these formats
their fields (R92, R93) and no byte order of a register address (R66); the byte layout decoded here is the
model's choice (log 17, DESIGN CHOICE), and the numbers of `REF` are presumed ones (log 2). -/
def Obligations.WordsOfTheSpecDecode : Prop :=
  decode Config.ref .event [0b1000] = .ok .reset ∧
  decode Config.ref .event [0b0001] = .ok .irq ∧
  decode Config.ref .query [0b0100] = .ok .query ∧
  decode Config.ref .uop [0x6] = .ok .rdpt ∧
  decode Config.ref .uop [0xA] = .error .unusedMicroOp ∧
  decode Config.ref .branch [0x01, 0x48, 0x04, 0x00] = .ok (.branch1 0x00044801) ∧
  decode Config.ref .branch [0x09, 0x08, 0x06, 0x00] = .ok (.branch4Pt 0x00060809) ∧
  decode Config.ref (.read true) [0x04, 0x00, 0x00, 0x20] = .ok .cmdRdStatus ∧
  decode Config.ref .write [0x00, 0x01, 0x00, 0x02] = .ok .cmdClearInt

/-- Decode and encode agree: the word of a well-formed instruction decodes to that instruction, at every
operand value, under every configuration. -/
def Obligations.DecodeInvertsEncode : Prop :=
  ∀ (cfg : Config) (i : Instr), i.wf cfg = true →
    decode cfg (encode cfg i).1 (encode cfg i).2 = .ok i

/-- A word that decodes is the word of the instruction it decodes to, and that instruction is well formed:
no two words of one kind mean the same. -/
def Obligations.EncodeInvertsDecode : Prop :=
  ∀ (cfg : Config) (kind : WordKind) (bytes : List Byte) (i : Instr),
    decode cfg kind bytes = .ok i → i.wf cfg = true ∧ (encode cfg i).2 = bytes

/-- A step is refused in two cases only: POLL while a cycle is in flight (R287, U14), and a read answered
with more bytes than asked (U7). No word a step fetches fails to decode (R142), and no step faults. The
two refusals are the spec's decisions D30 and D26. -/
def Obligations.StepRefusesOnlyReentryAndLongAnswers : Prop :=
  ∀ s : State,
    (∀ f, step s ≠ .fault f) ∧
    (∀ r, step s = .refused r →
      (r = .pollInFlight ∧ s.upc ≠ .idle ∧ ∃ rest, s.inbox = .poll :: rest) ∨
      (r = .answerTooLong ∧ (s.inbox = [] ∨ ∃ rest, s.inbox = .turn :: rest) ∧
        ∃ bytes rest, s.answers = .ok bytes :: rest ∧
          ((s.upc = .run 0 ∧ 4 < bytes.length) ∨
           (s.upc = .run 14 ∧ s.rem ≠ 0 ∧ min s.rem.toNat s.cfg.maxXfer < bytes.length))))

/-! ### The Status Decoder and the branch map -/

/-- The fields of the decoded status, bit by bit of the four bytes (R122 to R125, R127 to R131). -/
def Obligations.StatusFieldsAreTheSpecBits : Prop :=
  ∀ b0 b1 b2 b3 : Byte,
    let st := decodeStatus (b3 ++ b2 ++ b1 ++ b0)
    st.ptExist = b0.getLsbD 0 ∧ st.gesture = b0.getLsbD 1 ∧ st.aux = b0.getLsbD 3 ∧
    st.cpuRunning = b1.getLsbD 3 ∧ st.intLow = b1.getLsbD 4 ∧ st.inCpuState = b1.getLsbD 5 ∧
    st.inBootRom = b1.getLsbD 6 ∧ st.busy = b1.getLsbD 7 ∧
    st.pendingLength.toNat = b3.toNat * 256 + b2.toNat

/-- The three fields with no bit of the payload are 0 for every input: the spec's decision D3 (R126). -/
def Obligations.UnassignedStatusFieldsAreZero : Prop :=
  ∀ sw : BitVec 32, (decodeStatus sw).key = false ∧ (decodeStatus sw).keep = false ∧
    (decodeStatus sw).rawOrPt = false

/-- Reserved bits change neither a field nor the branch (R98): two payloads that agree outside `SW[2]`,
`SW[7:4]` and `SW[10:8]` decode alike and select the same branch. -/
def Obligations.ReservedStatusBitsIgnored : Prop :=
  ∀ (cfg : Config) (sw sw' : BitVec 32), sw &&& 0xFFFFF80B = sw' &&& 0xFFFFF80B →
    decodeStatus sw = decodeStatus sw' ∧
    branchOf cfg (decodeStatus sw) = branchOf cfg (decodeStatus sw')

/-- DECODE shows the StatusWord and writes no register (R120, R121). -/
def Obligations.DecodeWritesNoRegister : Prop :=
  ∀ (s : State) (sw : BitVec 32),
    exec (.decode sw) s = .next { s with trace := .decoded (decodeStatus sw) :: s.trace }

/-- The six conditions in priority order (R146). -/
def Obligations.BranchTakesFirstConditionThatHolds : Prop :=
  ∀ (cfg : Config) (st : StatusWord),
    let arm := st.inCpuState = true ∧ samplingPred cfg.sampling st = false
    let empty := st.cpuRunning = true ∧ st.pendingLength = 0
    let data := st.ptExist = true ∨ st.gesture = true
    let event := st.cpuRunning = true ∧ st.aux = true
    (branchOf cfg st = .b1 ↔ st.inBootRom = true) ∧
    (branchOf cfg st = .b2 ↔ st.inBootRom = false ∧ arm) ∧
    (branchOf cfg st = .b3 ↔ st.inBootRom = false ∧ ¬arm ∧ empty) ∧
    (branchOf cfg st = .b4 ↔ st.inBootRom = false ∧ ¬arm ∧ ¬empty ∧ data) ∧
    (branchOf cfg st = .b5 ↔ st.inBootRom = false ∧ ¬arm ∧ ¬empty ∧ ¬data ∧ event) ∧
    (branchOf cfg st = .b6 ↔ st.inBootRom = false ∧ ¬arm ∧ ¬empty ∧ ¬data ∧ ¬event)

/-- R96's table of masks, scanned in order, selects the row of the branch that R146's conditions select on
the decoded status. R96 is the spec's own derivation. -/
def Obligations.MaskTableAgreesWithBranchConditions : Prop :=
  ∀ (cfg : Config) (sw : BitVec 32),
    (branchOf cfg (decodeStatus sw) = .b1 ↔ selectRow cfg sw = .branch1 sw) ∧
    (branchOf cfg (decodeStatus sw) = .b2 ↔ selectRow cfg sw = .branch2 sw) ∧
    (branchOf cfg (decodeStatus sw) = .b3 ↔ selectRow cfg sw = .branch3 sw) ∧
    (branchOf cfg (decodeStatus sw) = .b4 ↔
      selectRow cfg sw = .branch4Pt sw ∨ selectRow cfg sw = .branch4Ges sw) ∧
    (branchOf cfg (decodeStatus sw) = .b5 ↔ selectRow cfg sw = .branch5 sw) ∧
    (branchOf cfg (decodeStatus sw) = .b6 ↔ selectRow cfg sw = .branch6 sw)

/-- The seven selector rows complete at the dispatch index for a payload that meets their condition: the
branch and its entry are taken, and branch 4 loads the counters (R145, R150 to R155). That a selector is an
instruction of its own is the model's reading of the table (log 16). -/
def Obligations.BranchSelectorsEnterTheirRun : Prop :=
  ∀ (s : State) (sw : BitVec 32), s.upc = .run 1 →
    let st := decodeStatus sw
    let arm := st.inCpuState = true ∧ samplingPred s.cfg.sampling st = false
    let empty := st.cpuRunning = true ∧ st.pendingLength = 0
    let enter := fun (b : Branch) (k : Fin 23) =>
      { s with res := { s.res with branch := some b }, upc := .run k }
    let load := { s with
      res := { s.res with branch := some .b4 }, upc := .run 14, rem := st.pendingLength, off := 0 }
    (st.inBootRom = true → exec (.branch1 sw) s = .next (enter .b1 2)) ∧
    (st.inBootRom = false → arm → exec (.branch2 sw) s = .next (enter .b2 6)) ∧
    (st.inBootRom = false → ¬arm → empty → exec (.branch3 sw) s = .next (enter .b3 11)) ∧
    (st.inBootRom = false → ¬arm → ¬empty → st.ptExist = true →
      exec (.branch4Pt sw) s = .next load) ∧
    (st.inBootRom = false → ¬arm → ¬empty → st.ptExist = false → st.gesture = true →
      exec (.branch4Ges sw) s = .next load) ∧
    (st.inBootRom = false → ¬arm → ¬empty → st.ptExist = false → st.gesture = false →
      st.cpuRunning = true → st.aux = true → exec (.branch5 sw) s = .next (enter .b5 19)) ∧
    (st.inBootRom = false → ¬arm → ¬empty → st.ptExist = false → st.gesture = false →
      ¬(st.cpuRunning = true ∧ st.aux = true) → exec (.branch6 sw) s = .next (enter .b6 22))

/-- The dispatch micro-op does exactly what the selector row of `SW` does (R96, R145): the mask table and
the conditions lead to one machine. That a selector row is an instruction of its own is the model's choice
(log 16, DESIGN CHOICE). -/
def Obligations.DispatchRunsTheSelectedRow : Prop :=
  ∀ s : State, s.upc = .run 1 → exec .disp s = exec (selectRow s.cfg s.sw) s

/-! ### Events -/

/-- The state after reset (R45, and the spec's decision D25 for the rest). The values of `SW`, `REM`, `OFF`
and `SCRATCH` (log 6) and the parameters (log 2) are not stated. -/
def Obligations.ResetStateIsIdleAndEmpty : Prop :=
  State.reset.latch = false ∧ State.reset.tb.touchNum = 0 ∧
  State.reset.tb.points = List.replicate State.reset.cfg.maxPoints TouchPoint.zero ∧
  State.reset.tb.metadata = Metadata.zero ∧ State.reset.upc = .idle ∧
  State.reset.res = { code := .noEvent, branch := none, loc := 0 }

/-- After RESET the edge latch is 0 (R45): in the reset state, and after the RESET event in any state. That RESET
applies in every state, with a cycle in flight too, is the spec's decision D25 (R281) and the model's reading of
it (log 21, DEDUCED). -/
def Obligations.ResetClearsTheLatch : Prop :=
  State.reset.latch = false ∧ ∀ s : State, ∃ t, exec .reset s = .next t ∧ t.latch = false

/-- The RESET event, in every state (R280; D25): latch clear, empty report, idle, `RES = {NO_EVENT, 0, 0}`; no
bus transaction. `SW`, `REM`, `OFF` and `SCRATCH` are left unspecified, and so are not stated but for the
length of `SCRATCH`. That the trace gets no other line, so that the POLL of a cycle in flight never returns, is the
model's choice (log 25, DESIGN CHOICE). -/
def Obligations.ResetEventEmptiesTheMachine : Prop :=
  ∀ s : State, ∃ t : State, exec .reset s = .next t ∧
    t.latch = false ∧ t.tb.touchNum = 0 ∧
    t.tb.points = List.replicate s.cfg.maxPoints TouchPoint.zero ∧
    t.tb.metadata = Metadata.zero ∧ t.upc = .idle ∧
    t.res = { code := .noEvent, branch := none, loc := 0 } ∧
    t.scratch.length = s.cfg.scratchLen ∧
    t.cfg = s.cfg ∧ t.inbox = s.inbox ∧ t.answers = s.answers ∧ t.trace = .reset :: s.trace

/-- IRQ sets the latch and writes nothing else, in every state (R210). -/
def Obligations.IrqSetsOnlyTheLatch : Prop :=
  ∀ s : State, exec .irq s = .next { s with latch := true, trace := .irq :: s.trace }

/-- POLL's test of the latch (R140): clear, it returns NO_EVENT; set, it starts a cycle with `RES = RUNNING` at
index 0; the latch itself is not cleared; with a cycle in flight it is refused (D30). -/
def Obligations.PollStartsACycleOnlyWhenLatched : Prop :=
  ∀ s : State,
    (s.upc = .idle → s.latch = false → exec .poll s = .next { s with
      res := { code := .noEvent, branch := none, loc := 0 }
      trace := .pollDone { code := .noEvent, branch := none, loc := 0 } :: .poll :: s.trace }) ∧
    (s.upc = .idle → s.latch = true → exec .poll s = .next { s with
      res := { code := .running, branch := none, loc := 0 }
      upc := .run 0
      trace := .poll :: s.trace }) ∧
    (∀ k, s.upc = .run k → exec .poll s = .refused .pollInFlight)

/-- TAKE hands out the count, the first `touch_num` slots and the metadata as stored, and clears the count and
nothing else (R214). -/
def Obligations.TakeSnapshotsAndClearsTheCount : Prop :=
  ∀ s : State, exec .take s = .next { s with
    tb := { s.tb with touchNum := 0 }
    trace := .take { touchNum := s.tb.touchNum
                     points := s.tb.points.take s.tb.touchNum
                     metadata := s.tb.metadata } :: s.trace }

/-- QUERY hands out the count and the first point, zeros when the count is 0 (R218; D20), and clears the count
as TAKE does. The second clause has the slots of a reachable state as its premise (`Inv.slots`). -/
def Obligations.QueryProjectsTheFirstPoint : Prop :=
  ∀ s : State,
    (s.tb.touchNum = 0 → exec .query s = .next { s with
      tb := { s.tb with touchNum := 0 }
      trace := .query { pressed := false, pointCount := 0, x := 0, y := 0, weight := 0 } ::
        s.trace }) ∧
    (∀ p ps, 0 < s.tb.touchNum → s.tb.points = p :: ps → exec .query s = .next { s with
      tb := { s.tb with touchNum := 0 }
      trace := .query { pressed := true, pointCount := s.tb.touchNum
                        x := p.x, y := p.y, weight := p.weight } :: s.trace })

/-- R216: with nothing published between, the second of two TAKEs returns the empty report, and so does the
first if nothing was pending; PUBL and then TAKE returns the report published, point for point, and the count is
then 0, and a further TAKE returns the empty report. That the empty report carries the metadata as stored is not
R216's: it is the spec's own choice D19 (R214, R215), and U25 lets a model give any value there. The snapshots are
the newest lines of the trace (log 18). -/
def Obligations.TakeIsIdempotent : Prop :=
  let empties := fun (s t : State) =>
    t.trace = .take { touchNum := 0, points := [], metadata := s.tb.metadata } :: s.trace
  (∀ s t : State, s.tb.touchNum = 0 → exec .take s = .next t → empties s t) ∧
  (∀ s t u : State, exec .take s = .next t → exec .take t = .next u → empties t u) ∧
  (∀ s t u v : State, exec .publ s = .next t → exec .take t = .next u → exec .take u = .next v →
    ∃ snap, t.trace = .pub snap :: s.trace ∧ u.trace = .take snap :: t.trace ∧
      snap.touchNum = t.tb.touchNum ∧ u.tb.touchNum = 0 ∧ empties u v)

/-! ### Micro-ops -/

/-- The answer to the next transaction: the oldest queued one; with none queued, `Fail` or at most `n` bytes,
chosen by nobody (R6, R62; the queue is the model's, log 9). No other field changes. -/
def Obligations.AnswersComeOldestFirst : Prop :=
  ∀ (n : Nat) (s : State),
    (∀ a rest, s.answers = a :: rest → takeAnswer n s = (a, { s with answers := rest })) ∧
    (s.answers = [] → ∃ a, takeAnswer n s = (a, { s with fresh := s.fresh + 1 }) ∧
      (a = .fail ∨ ∃ bytes, a = .ok bytes ∧ bytes.length ≤ n))

/-- RDST (R144): four bytes go to `SW`; a failed or short read raises FAIL_STATUS(0), and `SW`, `TB` and the latch
keep their values; the latch is set here in every state that meets the invariant. -/
def Obligations.RdstLoadsTheStatus : Prop :=
  ∀ s : State, s.upc = .run 0 →
    let a := (takeAnswer 4 s).1
    let after := (takeAnswer 4 s).2
    let read := TraceLine.rd s.cfg.devAddr s.cfg.regStatus 4 a
    let failed : Result := { code := .failStatus, branch := s.res.branch, loc := 0 }
    (∀ b0 b1 b2 b3, a = .ok [b0, b1, b2, b3] → exec .rdst s = .next { after with
      sw := b3 ++ b2 ++ b1 ++ b0, upc := .run 1, trace := read :: s.trace }) ∧
    ((∀ bytes, a = .ok bytes → bytes.length < 4) → exec .rdst s = .next { after with
      res := failed, upc := .idle, trace := .pollDone failed :: read :: s.trace }) ∧
    (Inv s → after.latch = true)

/-- A short read is a failure, "exactly as `Fail`" (R65, R242): the machine after a short answer and after `Fail` is
the same, but for the answer recorded in the trace, and the failure raised is that of the read. -/
def Obligations.ShortReadIsAFailure : Prop :=
  ∀ (s : State) (bytes : List Byte) (rest : List BusAnswer),
    let short := { s with answers := .ok bytes :: rest }
    let failed := { s with answers := .fail :: rest }
    let alike := fun (i : Instr) (code : ResCode) => ∃ t u, exec i short = .next t ∧
      exec i failed = .next u ∧ { t with trace := [] } = { u with trace := [] } ∧ t.res.code = code
    (s.upc = .run 0 → bytes.length < 4 → alike .rdst .failStatus) ∧
    (s.upc = .run 14 → s.rem ≠ 0 → bytes.length < min s.rem.toNat s.cfg.maxXfer →
      alike .rdpt .failData)

/-- An answer longer than asked is no answer of `BusRead` (D26, U7): the reading micro-op and its command take no
step. The model's reading of "refuses such an answer" (log 10). -/
def Obligations.LongAnswersAreRefused : Prop :=
  ∀ (s : State) (bytes : List Byte) (rest : List BusAnswer), s.answers = .ok bytes :: rest →
    (s.upc = .run 0 → 4 < bytes.length →
      exec .rdst s = .refused .answerTooLong ∧ exec .cmdRdStatus s = .refused .answerTooLong) ∧
    (∀ n : BitVec 16, s.upc = .run 14 → s.rem ≠ 0 → n.toNat = min s.rem.toNat s.cfg.maxXfer →
      n.toNat < bytes.length →
      exec .rdpt s = .refused .answerTooLong ∧
      exec (.cmdRdPoints n) s = .refused .answerTooLong)

/-- DISP (R145): `RES.branch`, `upc` and, for branch 4, `REM` and `OFF`; nothing else. -/
def Obligations.DispEntersTheSelectedBranch : Prop :=
  ∀ s : State, s.upc = .run 1 →
    let st := decodeStatus s.sw
    let enter := fun (b : Branch) (k : Fin 23) =>
      { s with res := { s.res with branch := some b }, upc := .run k }
    (branchOf s.cfg st = .b1 → exec .disp s = .next (enter .b1 2)) ∧
    (branchOf s.cfg st = .b2 → exec .disp s = .next (enter .b2 6)) ∧
    (branchOf s.cfg st = .b3 → exec .disp s = .next (enter .b3 11)) ∧
    (branchOf s.cfg st = .b4 → exec .disp s = .next
      { enter .b4 14 with rem := st.pendingLength, off := 0 }) ∧
    (branchOf s.cfg st = .b5 → exec .disp s = .next (enter .b5 19)) ∧
    (branchOf s.cfg st = .b6 → exec .disp s = .next (enter .b6 22))

/-- The four control writes (R147, R148, R149, R156, R159), at every index where each stands: the command's
register and payload, then the settle delay, then the next index; or, if the write failed, FAIL_WRITE at
this index. Nothing else changes. -/
def Obligations.ControlWritesAdvanceOrAbort : Prop :=
  ∀ (s : State) (k : Fin 23) (op : Instr) (reg : BitVec 16) (pl : Payload),
    ((op = .wclr ∧ k ∈ [2, 8, 11, 16, 19] ∧ reg = s.cfg.regClearInt ∧ pl = s.cfg.plClearInt) ∨
     (op = .wcpu ∧ k = 3 ∧ reg = s.cfg.regStartCpu ∧ pl = s.cfg.plStartCpu) ∨
     (op = .wptm ∧ k = 6 ∧ reg = s.cfg.regPointMode ∧ pl = s.cfg.plPointMode) ∨
     (op = .wsta ∧ k = 7 ∧ reg = s.cfg.regStartSampling ∧ pl = s.cfg.plStartSampling)) →
    s.upc = .run k →
    let a := (takeAnswer 0 s).1
    let after := (takeAnswer 0 s).2
    let lines := fun ok => TraceLine.settle s.cfg.tSettle ::
      TraceLine.wr s.cfg.devAddr reg pl.p0 pl.p1 ok :: s.trace
    let failed : Result := { code := .failWrite, branch := s.res.branch, loc := k }
    (a ≠ .fail → exec op s = .next { after with upc := .run (k + 1), trace := lines true }) ∧
    (a = .fail → exec op s = .next { after with
      res := failed, upc := .idle, trace := .pollDone failed :: lines false })

/-- RDPT (R181, R182): with `REM = 0` it moves on without a read; else it reads `min(REM, MAX_XFER)` bytes at
`REG_POINT_DATA`, stores them from `OFF` on, and moves the counters; a failed or short read raises
FAIL_DATA(14) and leaves buffer and counters. That every chunk is read at one address is the spec's decision
D13. -/
def Obligations.RdptReadsOneChunk : Prop :=
  ∀ s : State, s.upc = .run 14 →
    let c := min s.rem.toNat s.cfg.maxXfer
    let a := (takeAnswer c s).1
    let after := (takeAnswer c s).2
    let read := TraceLine.rd s.cfg.devAddr s.cfg.regPointData c a
    let failed : Result := { code := .failData, branch := s.res.branch, loc := 14 }
    (s.rem = 0 → exec .rdpt s = .next { s with upc := .run 15 }) ∧
    (s.rem ≠ 0 → ∀ bytes, a = .ok bytes → bytes.length = c →
      ∃ stored, exec .rdpt s = .next { after with
          scratch := stored
          off := s.off + BitVec.ofNat 16 c
          rem := s.rem - BitVec.ofNat 16 c
          trace := read :: s.trace } ∧
        stored.length = s.scratch.length ∧
        ∀ j, j < s.scratch.length → stored[j]? =
          if s.off.toNat ≤ j ∧ j < s.off.toNat + c then bytes[j - s.off.toNat]?
          else s.scratch[j]?) ∧
    (s.rem ≠ 0 → (∀ bytes, a = .ok bytes → bytes.length < c) →
      exec .rdpt s = .next { after with
        res := failed, upc := .idle, trace := .pollDone failed :: read :: s.trace })

/-- The counters `REM` (R29) and `OFF` (R30, which the spec derives from R29): DISP loads it with the pending length when it enters branch 4; each successful chunk,
a read of `c = min(REM, MAX_XFER)` bytes answered in full, takes exactly `c` off it, and it never goes below 0.
`OFF` grows by the same `c`, and `c` is at least 1, so every such step makes progress. The chunk and its read are
R181's; that every chunk is read at `REG_POINT_DATA` is the spec's decision D13. -/
def Obligations.ChunkMovesTheCountersExactly : Prop :=
  (∀ s t : State, branchOf s.cfg (decodeStatus s.sw) = .b4 → exec .disp s = .next t →
    t.rem = (decodeStatus s.sw).pendingLength ∧ t.off = 0) ∧
  (∀ s t : State, s.upc = .run 14 → s.rem ≠ 0 → exec .rdpt s = .next t → t.upc = .run 14 →
    let c := chunkSize s.cfg s.rem
    c = min s.rem.toNat s.cfg.maxXfer ∧ 1 ≤ c ∧
    (∃ bytes : List Byte, bytes.length = c ∧
      t.trace = .rd s.cfg.devAddr s.cfg.regPointData c (.ok bytes) :: s.trace) ∧
    t.rem.toNat + c = s.rem.toNat ∧
    (Inv s → t.off.toNat = s.off.toNat + c ∧
      t.off.toNat + t.rem.toNat = (decodeStatus s.sw).pendingLength.toNat))

/-- PUBL (R189; D25): the whole buffer is replaced: `n = min(DevCount, MAX_POINTS)` slots decoded through `LAYOUT`
from their records, the others `TP0`, the metadata from the stored payload. Nothing else changes but `upc`. -/
def Obligations.PublReplacesTheWholeBuffer : Prop :=
  ∀ s : State, s.upc = .run 15 →
    let st := decodeStatus s.sw
    let l := s.cfg.layout
    let len := st.pendingLength.toNat
    let count := if st.ptExist = true ∧ l.hdrLen ≤ len then (len - l.hdrLen) / l.recLen else 0
    let n := min count s.cfg.maxPoints
    ∃ report : TouchReport,
      exec .publ s = .next { s with
        tb := report
        upc := .run 16
        trace := .pub { touchNum := n
                        points := report.points.take n
                        metadata := report.metadata } :: s.trace } ∧
      report.touchNum = n ∧ report.points.length = s.cfg.maxPoints ∧
      (∀ i, i < n → report.points[i]? = some (layoutPoint l i
        ((s.scratch.drop (l.hdrLen + i * l.recLen)).take l.recLen))) ∧
      (∀ i, n ≤ i → i < s.cfg.maxPoints → report.points[i]? = some TouchPoint.zero) ∧
      report.metadata = layoutMetadata l st (s.scratch.take (min len s.cfg.scratchLen))

/-- "The number of records produced is `min(device-reported count, MAX_POINTS)`", so never more than `MAX_POINTS`,
and "The records kept are the first `n` in payload order" (R187). Where the device-reported count comes from is the
spec's decision D15 (`devCount`). -/
def Obligations.PublishedCountIsClipped : Prop :=
  ∀ s : State, s.upc = .run 15 → ∃ t : State, exec .publ s = .next t ∧
    t.tb.touchNum = min (devCount s.cfg (decodeStatus s.sw)) s.cfg.maxPoints ∧
    t.tb.touchNum ≤ s.cfg.maxPoints ∧
    ∀ i, i < t.tb.touchNum →
      t.tb.points[i]? = some (layoutPoint s.cfg.layout i (recordBytes s.cfg s.scratch i))

/-- PUBL reads only bytes of this cycle (R190): two scratch buffers that agree on the first
`min(pending_length, SCRATCH_LEN)` bytes give the same report, whatever stale bytes follow. -/
def Obligations.PublIgnoresStaleScratch : Prop :=
  ∀ (s : State) (other : List Byte),
    (∀ j, j < min (decodeStatus s.sw).pendingLength.toNat s.cfg.scratchLen →
      other[j]? = s.scratch[j]?) →
    s.scratch.length = s.cfg.scratchLen → other.length = s.cfg.scratchLen →
    ∀ t u : State, exec .publ s = .next t → exec .publ { s with scratch := other } = .next u →
      u.tb = t.tb

/-- LCLR clears the latch and moves on, at each index where it stands (R157; D6). -/
def Obligations.LclrClearsTheLatch : Prop :=
  ∀ (s : State) (k : Fin 23), k ∈ [4, 9, 12, 17, 20] → s.upc = .run k →
    exec .lclr s = .next { s with latch := false, upc := .run (k + 1) }

/-- DONE ends the cycle with `OK`, at each index where it stands; the latch keeps its value, so branch 6 leaves
it set (R158; D21, D7). -/
def Obligations.DoneReturnsOk : Prop :=
  ∀ (s : State) (k : Fin 23), k ∈ [5, 10, 13, 18, 21, 22] → s.upc = .run k →
    exec .done s = .next { s with
      res := { s.res with code := .ok }
      upc := .idle
      trace := .pollDone { s.res with code := .ok } :: s.trace }

/-- The six bus commands, where the micro-op that issues them stands: one transaction with its answer, and
the settle delay after a write; no register changes (R92, R93, R102). That a command is an instruction of
its own is the model's reading of the table (log 16). -/
def Obligations.BusCommandsMakeOneTransaction : Prop :=
  ∀ (s : State) (k : Fin 23), s.upc = .run k →
    let dev := s.cfg.devAddr
    let wrote := fun (reg : BitVec 16) (pl : Payload) =>
      { (takeAnswer 0 s).2 with
        trace := TraceLine.settle s.cfg.tSettle ::
          .wr dev reg pl.p0 pl.p1 (decide ((takeAnswer 0 s).1 ≠ .fail)) :: s.trace }
    let fits := fun n => ∀ bytes, (takeAnswer n s).1 = .ok bytes → bytes.length ≤ n
    (k = 0 → fits 4 → exec .cmdRdStatus s = .next { (takeAnswer 4 s).2 with
      trace := .rd dev s.cfg.regStatus 4 (takeAnswer 4 s).1 :: s.trace }) ∧
    (∀ n : BitVec 16, k = 14 → n ≠ 0 → n.toNat = min s.rem.toNat s.cfg.maxXfer → fits n.toNat →
      exec (.cmdRdPoints n) s = .next { (takeAnswer n.toNat s).2 with
        trace := .rd dev s.cfg.regPointData n.toNat (takeAnswer n.toNat s).1 :: s.trace }) ∧
    (k ∈ [2, 8, 11, 16, 19] →
      exec .cmdClearInt s = .next (wrote s.cfg.regClearInt s.cfg.plClearInt)) ∧
    (k = 3 → exec .cmdStartCpu s = .next (wrote s.cfg.regStartCpu s.cfg.plStartCpu)) ∧
    (k = 6 → exec .cmdPointMode s = .next (wrote s.cfg.regPointMode s.cfg.plPointMode)) ∧
    (k = 7 →
      exec .cmdStartSampling s = .next (wrote s.cfg.regStartSampling s.cfg.plStartSampling))

/-- The packing of `LAYOUT_P4`, the spec's own reference layout and not the device's (R183, D14). -/
def Obligations.ReferenceLayoutPacksTwelveBits : Prop :=
  ∀ (i : Nat) (r0 r1 r2 r3 : Byte),
    let p := pointP4 i [r0, r1, r2, r3]
    p.id.toNat = i % 256 ∧ p.x.toNat = r2.toNat / 16 * 256 + r0.toNat ∧
    p.y.toNat = r2.toNat % 16 * 256 + r1.toNat ∧ p.weight = r3

/-! ### Failures -/

/-- A failure ends the cycle at once and changes nothing else (R248, R160): whatever micro-op raises it, `RES`
becomes the failure with the branch it had and this index, `upc` becomes `IDLE`, every other register keeps its
value, and POLL returns `RES`. -/
def Obligations.FailureChangesOnlyResAndUpc : Prop :=
  ∀ (s t : State) (i : Instr) (k : Fin 23), s.upc = .run k → isFailure s.res.code = false →
    exec i s = .next t → isFailure t.res.code = true →
    t.upc = .idle ∧ t.res.branch = s.res.branch ∧ t.res.loc = k ∧
    t.latch = s.latch ∧ t.tb = s.tb ∧ t.sw = s.sw ∧ t.rem = s.rem ∧ t.off = s.off ∧
    t.scratch = s.scratch ∧ t.cfg = s.cfg ∧ t.inbox = s.inbox ∧
    t.trace.head? = some (.pollDone t.res) ∧
    ((i = .rdst ∧ t.res.code = .failStatus) ∨ (i = .rdpt ∧ t.res.code = .failData) ∨
     ((i = .wclr ∨ i = .wcpu ∨ i = .wptm ∨ i = .wsta) ∧ t.res.code = .failWrite))

/-- "On any read failure mid-sequence, the assembler stops, does not update the Shared Touch Buffer, and signals a
transient failure" (R191): the cycle ends with FAIL_DATA(14), TAKE returns what it would have returned before, no
clear-interrupt is written, the latch is still set, and buffer and counters keep what the completed chunks
left. -/
def Obligations.FailedAssemblyKeepsThePublishedReport : Prop :=
  ∀ s : State, Inv s → s.upc = .run 14 → s.rem ≠ 0 →
    (∀ bytes, (takeAnswer (chunkSize s.cfg s.rem) s).1 = .ok bytes →
      bytes.length < chunkSize s.cfg s.rem) →
    ∃ t, exec .rdpt s = .next t ∧ t.res = { code := .failData, branch := s.res.branch, loc := 14 } ∧
      t.upc = .idle ∧ t.latch = true ∧ t.tb = s.tb ∧ cycleWrites t = cycleWrites s ∧
      t.scratch = s.scratch ∧ t.off = s.off ∧ t.rem = s.rem ∧
      ∃ u, exec .take t = .next u ∧
        u.trace = .take { touchNum := s.tb.touchNum
                          points := s.tb.points.take s.tb.touchNum
                          metadata := s.tb.metadata } :: t.trace

/-- "Recovery is the next POLL: it finds `upc = IDLE` and `LATCH = 1` and starts a new cycle from the status read"
(R251): after a failure, with no new edge. -/
def Obligations.NextPollRetriesWithoutANewEdge : Prop :=
  ∀ s : State, Inv s → isFailure s.res.code = true →
    s.upc = .idle ∧ s.latch = true ∧
    exec .poll s = .next { s with
      res := { code := .running, branch := none, loc := 0 }
      upc := .run 0
      trace := .poll :: s.trace }

/-- A cycle that matched no branch leaves the latch set, and the next POLL evaluates the device again with no new
edge: the spec's decision D7 (R155). -/
def Obligations.UnmatchedStatusIsEvaluatedAgain : Prop :=
  ∀ s : State, Inv s → s.upc = .idle → s.res.code = .ok → s.res.branch = some .b6 →
    exec .poll s = .next { s with
      res := { code := .running, branch := none, loc := 0 }
      upc := .run 0
      trace := .poll :: s.trace }

/-! ### Whole-machine rules -/

/-- Who writes which register (R24's table), over every instruction; a branch selector writes what DISP does
(log 16), and RESET leaves `SW`, `REM`, `OFF` and `SCRATCH` unspecified (R47). No instruction changes a parameter
(R34). -/
def Obligations.RegistersHaveTheirWriters : Prop :=
  ∀ (i : Instr) (s t : State), exec i s = .next t →
    let selector := i = .disp ∨ ∃ sw, i = .branch1 sw ∨ i = .branch2 sw ∨ i = .branch3 sw ∨
      i = .branch4Pt sw ∨ i = .branch4Ges sw ∨ i = .branch5 sw ∨ i = .branch6 sw
    let control := i = .wclr ∨ i = .wcpu ∨ i = .wptm ∨ i = .wsta
    t.cfg = s.cfg ∧ t.inbox = s.inbox ∧
    (t.latch ≠ s.latch → i = .irq ∨ i = .lclr ∨ i = .reset) ∧
    (t.latch = false → s.latch = true → i = .lclr ∨ i = .reset) ∧
    (t.tb ≠ s.tb → i = .publ ∨ i = .take ∨ i = .query ∨ i = .reset) ∧
    (t.sw ≠ s.sw → i = .rdst ∨ i = .reset) ∧
    (t.rem ≠ s.rem ∨ t.off ≠ s.off → selector ∨ i = .rdpt ∨ i = .reset) ∧
    (t.scratch ≠ s.scratch → i = .rdpt ∨ i = .reset) ∧
    (t.res ≠ s.res →
      i = .poll ∨ selector ∨ i = .done ∨ i = .rdst ∨ i = .rdpt ∨ control ∨ i = .reset) ∧
    (t.upc ≠ s.upc → i = .poll ∨ selector ∨ i = .rdst ∨ i = .rdpt ∨ i = .publ ∨ i = .lclr ∨
      i = .done ∨ control ∨ i = .reset)

/-- Every instruction that takes a step adds only lines to the trace, makes at most one bus transaction (R142),
and that one is a command of R102's table; only the micro-ops and commands that issue one make one, so
neither the interrupt agent nor the consumer touches the bus (R80). That the bus commands are instructions of
their own, which make the transaction of their micro-op, is the model's choice (log 16, DESIGN CHOICE). -/
def Obligations.OnlySpecifiedBusTransactions : Prop :=
  ∀ (i : Instr) (s t : State), exec i s = .next t →
    ∃ added : List TraceLine, t.trace = added ++ s.trace ∧
      (∀ line ∈ added, isCommandLine s.cfg line) ∧ (added.filter isBusLine).length ≤ 1 ∧
      (added.filter isBusLine ≠ [] →
        i ∈ [.rdst, .rdpt, .wclr, .wcpu, .wptm, .wsta, .cmdRdStatus, .cmdClearInt, .cmdStartCpu,
             .cmdPointMode, .cmdStartSampling] ∨ ∃ n, i = .cmdRdPoints n)

/-- After every step, each control write in the trace is followed at once by a settle delay of at least
`T_SETTLE` (R74, R285; D9). -/
def Obligations.SettleDelayFollowsEveryWrite : Prop :=
  ∀ s t : State, settled s.cfg.tSettle s.trace = true → step s = .next t →
    settled t.cfg.tSettle t.trace = true

/-- IRQ, TAKE and QUERY change nothing an acquisition cycle works with but `LATCH` and `TB`, and a micro-op does the
same to everything else the cycle works with, whatever the latch and the touch buffer hold. A cycle does write
those two (LCLR the latch, PUBL the buffer), but none of its micro-ops reads them. R254 says it of IRQ; that it
holds of TAKE and QUERY is R164, which the spec marks as derived. -/
def Obligations.AcquisitionIgnoresLatchAndBuffer : Prop :=
  (∀ (s t : State) (i : Instr), i = .irq ∨ i = .take ∨ i = .query → exec i s = .next t →
    SameAcquisition s t) ∧
  (∀ (s s' t : State) (i : Instr),
    i ∈ [.rdst, .disp, .wclr, .wcpu, .wptm, .wsta, .rdpt, .publ, .lclr, .done] →
    SameAcquisition s s' → exec i s = .next t →
    ∃ t', exec i s' = .next t' ∧ SameAcquisition t t')

/-- Where each micro-op moves `upc` (R27, at the indices of R141, which are the spec's decision D22): RDST to the
next index; DISP to the entry of the branch `SW` selects; a control write, PUBL and LCLR to the next index; RDPT
to itself while bytes remain, else to PUBL; DONE, and no other, to `IDLE` with `OK`; and each micro-op that can fail
to `IDLE` with its own failure, at its index. -/
def Obligations.MicroStepMovesUpc : Prop :=
  ∀ (s t : State) (k : Fin 23), s.upc = .run k →
    s.inbox = [] ∨ (∃ rest, s.inbox = .turn :: rest) → step s = .next t →
    let failed := fun code =>
      t.upc = .idle ∧ t.res = { code := code, branch := s.res.branch, loc := k }
    (microAt k = .rdst ∧ k = 0 ∧ (t.upc = .run 1 ∨ failed .failStatus)) ∨
    (microAt k = .disp ∧ k = 1 ∧ ∃ e : Fin 23, t.upc = .run e ∧
      (branchOf s.cfg (decodeStatus s.sw), e) ∈
        [(Branch.b1, 2), (.b2, 6), (.b3, 11), (.b4, 14), (.b5, 19), (.b6, 22)]) ∨
    (((microAt k = .wclr ∧ k ∈ [2, 8, 11, 16, 19]) ∨ (microAt k = .wcpu ∧ k = 3) ∨
      (microAt k = .wptm ∧ k = 6) ∨ (microAt k = .wsta ∧ k = 7)) ∧
      (t.upc = .run (k + 1) ∨ failed .failWrite)) ∨
    (microAt k = .rdpt ∧ k = 14 ∧ s.rem ≠ 0 ∧ (t.upc = .run 14 ∨ failed .failData)) ∨
    (microAt k = .rdpt ∧ k = 14 ∧ s.rem = 0 ∧ t.upc = .run 15) ∨
    (((microAt k = .publ ∧ k = 15) ∨ (microAt k = .lclr ∧ k ∈ [4, 9, 12, 17, 20])) ∧
      t.upc = .run (k + 1)) ∨
    (microAt k = .done ∧ k ∈ [5, 10, 13, 18, 21, 22] ∧ t.upc = .idle ∧
      t.res = { s.res with code := .ok })

/-! ### Invariants -/

/-- The three invariants hold right after reset. -/
def Obligations.ResetMeetsTheInvariants : Prop :=
  Inv State.reset ∧ WritesInOrder State.reset ∧ ReadsInOrder State.reset

/-- Every step keeps the machine's invariant (R23, R30, R31, R40, R249, R161 together). -/
def Obligations.StepKeepsInv : Prop :=
  ∀ s t : State, Inv s → step s = .next t → Inv t

/-- Every step keeps the order of control writes: a cycle makes exactly the writes of its one branch, in order,
and a failed cycle a first part of them that ends with the failed write (the properties quoted in R150, R151,
R152; R160, R162). -/
def Obligations.StepKeepsWritesInOrder : Prop :=
  ∀ s t : State, Inv s → WritesInOrder s → step s = .next t → WritesInOrder t

/-- Every step keeps the order of reads: one status read, and in branch 4 the payload in full chunks but for the
last, `pending_length` bytes in all (R69, R103, R162); after FAIL_STATUS the failed status read alone, after FAIL_DATA
the full chunks so far and the failed one, after FAIL_WRITE all reads of the run (R162, R160). -/
def Obligations.StepKeepsReadsInOrder : Prop :=
  ∀ s t : State, Inv s → ReadsInOrder s → step s = .next t → ReadsInOrder t

/-! ### Whole cycles -/

/-- Whole successful cycles of the branches that read no payload, from POLL to its return, for every other bit of
the status (T2, T3, T4 of spec/95_test_vectors.md; R150, R151, R152, R154, R155). -/
def Obligations.CyclesWithoutPayloadRunToOk : Prop :=
  ∀ (s : State) (b0 b1 b2 b3 : Byte) (d1 d2 d3 : List Byte) (rest : List BusAnswer),
    s.upc = .idle → s.latch = true → s.inbox = [.poll] →
    let sw : BitVec 32 := b3 ++ b2 ++ b1 ++ b0
    let b := branchOf s.cfg (decodeStatus sw)
    let status := BusAnswer.ok [b0, b1, b2, b3]
    let read := TraceLine.rd s.cfg.devAddr s.cfg.regStatus 4 status :: .poll :: s.trace
    let wr := fun (reg : BitVec 16) (pl : Payload) (older : List TraceLine) =>
      TraceLine.settle s.cfg.tSettle :: .wr s.cfg.devAddr reg pl.p0 pl.p1 true :: older
    let clear := wr s.cfg.regClearInt s.cfg.plClearInt
    let ended := fun (latch : Bool) (left : List BusAnswer) (lines : List TraceLine) =>
      { s with
        latch := latch, sw := sw, inbox := [], answers := left
        res := { code := .ok, branch := some b, loc := 0 }
        trace := .pollDone { code := .ok, branch := some b, loc := 0 } :: lines }
    (b = .b1 → s.answers = status :: .ok d1 :: .ok d2 :: rest →
      core.run 7 s = .next (ended false rest
        (wr s.cfg.regStartCpu s.cfg.plStartCpu (clear read)))) ∧
    (b = .b2 → s.answers = status :: .ok d1 :: .ok d2 :: .ok d3 :: rest →
      core.run 8 s = .next (ended false rest
        (clear (wr s.cfg.regStartSampling s.cfg.plStartSampling
          (wr s.cfg.regPointMode s.cfg.plPointMode read))))) ∧
    (b = .b3 ∨ b = .b5 → s.answers = status :: .ok d1 :: rest →
      core.run 6 s = .next (ended false rest (clear read))) ∧
    (b = .b6 → s.answers = status :: rest →
      core.run 4 s = .next (ended true rest read))

/-- Every cycle ends (R163, R296): from any state of a cycle in flight with nothing else requested, after at most
`ceil(65535 / MAX_XFER) + 8` steps `upc` is `IDLE` and POLL has returned `OK` or a failure, unless the environment
answers a read with more bytes than asked (U7). It rests on every bus transaction being answered, which the spec makes
a duty of the environment (R64, U6) and the model assumes (log 9, DESIGN CHOICE, unsafe for a claim that a cycle
ends, as this one is). -/
def Obligations.EveryCycleEnds : Prop :=
  ∀ s : State, Inv s → s.upc ≠ .idle → s.inbox = [] →
    ∃ n, n ≤ (65535 + s.cfg.maxXfer - 1) / s.cfg.maxXfer + 8 ∧
      ((∃ t, core.run n s = .next t ∧ t.upc = .idle ∧
          (t.res.code = .ok ∨ isFailure t.res.code = true) ∧
          t.trace.head? = some (.pollDone t.res)) ∨
        core.run n s = .refused .answerTooLong)

/-- A whole successful branch-4 cycle, from POLL to its return, for every status that selects branch 4 and every
payload, of any number of chunks, none included (T9 of spec/95_test_vectors.md; R153, R162, R181, R189): the status read,
the payload read in chunks of `MAX_XFER` bytes and one last shorter one, the report decoded from those bytes
published, clear-interrupt written, the latch cleared, and POLL returns `OK/4`. In the trace, newest first, the
transactions stand in that order. That the publish comes before clear-interrupt is the spec's decision D8. The
premise on the length of `SCRATCH` is `Inv.scratchLen`. -/
def Obligations.PayloadCyclePublishesAndRunsToOk : Prop :=
  ∀ (s : State) (b0 b1 b2 b3 : Byte) (chunks : List (List Byte)) (d : List Byte)
    (rest : List BusAnswer),
    s.upc = .idle → s.latch = true → s.inbox = [.poll] → s.scratch.length = s.cfg.scratchLen →
    let sw : BitVec 32 := b3 ++ b2 ++ b1 ++ b0
    let st := decodeStatus sw
    let l := s.cfg.layout
    let len := st.pendingLength.toNat
    let payload := chunks.flatten
    let count := if st.ptExist = true ∧ l.hdrLen ≤ len then (len - l.hdrLen) / l.recLen else 0
    let n := min count s.cfg.maxPoints
    let status := BusAnswer.ok [b0, b1, b2, b3]
    let ok4 : Result := { code := .ok, branch := some .b4, loc := 0 }
    branchOf s.cfg st = .b4 →
    chunks.map List.length = chunkSizes s.cfg len →
    s.answers = status :: (chunks.map .ok ++ .ok d :: rest) →
    ∃ report : TouchReport,
      core.run (chunks.length + 8) s = .next { s with
        latch := false
        tb := report
        sw := sw
        rem := 0
        off := st.pendingLength
        scratch := payload.take s.cfg.scratchLen ++ s.scratch.drop len
        res := ok4
        inbox := []
        answers := rest
        trace := .pollDone ok4 :: .settle s.cfg.tSettle ::
          .wr s.cfg.devAddr s.cfg.regClearInt s.cfg.plClearInt.p0 s.cfg.plClearInt.p1 true ::
          .pub { touchNum := n, points := report.points.take n, metadata := report.metadata } ::
          ((chunks.map fun c =>
              TraceLine.rd s.cfg.devAddr s.cfg.regPointData c.length (.ok c)).reverse ++
            .rd s.cfg.devAddr s.cfg.regStatus 4 status :: .poll :: s.trace) } ∧
      report.touchNum = n ∧ report.points.length = s.cfg.maxPoints ∧
      (∀ i, i < n → report.points[i]? =
        some (layoutPoint l i ((payload.drop (l.hdrLen + i * l.recLen)).take l.recLen))) ∧
      (∀ i, n ≤ i → i < s.cfg.maxPoints → report.points[i]? = some TouchPoint.zero) ∧
      report.metadata = layoutMetadata l st (payload.take s.cfg.scratchLen)
end

