-- ==== Sys2Proof/Laws/Operands.lean ====
section
/-! SUPPORT. The constraints of a configuration, and what the operand helpers compute. -/

namespace Sys2Proof.Machine

/-! The constraints of R8, which every configuration meets. -/

theorem config_maxPoints_pos (cfg : Config) : 1 ≤ cfg.maxPoints := by
  have h := cfg.ok; simp [Params.wf] at h; omega

theorem config_maxXfer_pos (cfg : Config) : 1 ≤ cfg.maxXfer := by
  have h := cfg.ok; simp [Params.wf] at h; omega

theorem config_maxXfer_le (cfg : Config) : cfg.maxXfer ≤ 65535 := by
  have h := cfg.ok; simp [Params.wf] at h; omega

theorem config_recLen_pos (cfg : Config) : 1 ≤ cfg.layout.recLen := by
  have h := cfg.ok; simp [Params.wf] at h; omega

theorem config_scratchLen_le (cfg : Config) : cfg.scratchLen ≤ 65535 := by
  have h := cfg.ok; simp [Params.wf] at h; omega

theorem config_commandsDistinct (cfg : Config) : cfg.commandsDistinct = true := by
  have h := cfg.ok; simp only [Params.wf, Bool.and_eq_true] at h; exact h.1.1.1.1.1.1.1

/-! Chunks (R181, R192). -/

theorem chunkSize_le_rem (cfg : Config) (rem : BitVec 16) : chunkSize cfg rem ≤ rem.toNat :=
  Nat.min_le_left _ _

theorem chunkSize_le_maxXfer (cfg : Config) (rem : BitVec 16) : chunkSize cfg rem ≤ cfg.maxXfer :=
  Nat.min_le_right _ _

theorem chunkSize_pos {cfg : Config} {rem : BitVec 16} (h : rem ≠ 0) : 1 ≤ chunkSize cfg rem := by
  have h1 := config_maxXfer_pos cfg
  have h2 : rem.toNat ≠ 0 := fun e => h (BitVec.eq_of_toNat_eq (by simpa using e))
  unfold chunkSize; omega

/-- Taking a chunk off `REM` never goes below 0 (R29). -/
theorem rem_sub_chunk (cfg : Config) (rem : BitVec 16) :
    (rem - BitVec.ofNat 16 (chunkSize cfg rem)).toNat = rem.toNat - chunkSize cfg rem := by
  have h := chunkSize_le_rem cfg rem
  have h2 := rem.isLt
  rw [BitVec.toNat_sub, BitVec.toNat_ofNat]; omega

/-- Adding a chunk to `OFF` stays within 16 bits while `OFF + REM` does (R30, R192). -/
theorem off_add_chunk {cfg : Config} {off rem : BitVec 16} (h : off.toNat + rem.toNat ≤ 65535) :
    (off + BitVec.ofNat 16 (chunkSize cfg rem)).toNat = off.toNat + chunkSize cfg rem := by
  have h1 := chunkSize_le_rem cfg rem
  rw [BitVec.toNat_add, BitVec.toNat_ofNat]; omega

/-! Storing a chunk (R181, R188). -/

@[simp] theorem storeChunk_length (scratch : List Byte) (off : Nat) (bytes : List Byte) :
    (storeChunk scratch off bytes).length = scratch.length := by
  induction bytes generalizing scratch off with
  | nil => rfl
  | cons b bs ih => rw [storeChunk, ih]; split <;> simp

/-- Each slot of the buffer holds the chunk's byte when the chunk covers it, and else what it held. -/
theorem storeChunk_getElem? (scratch : List Byte) (off : Nat) (bytes : List Byte) (j : Nat)
    (hj : j < scratch.length) :
    (storeChunk scratch off bytes)[j]? =
      if off ≤ j ∧ j < off + bytes.length then bytes[j - off]? else scratch[j]? := by
  induction bytes generalizing scratch off with
  | nil => simp [storeChunk]
  | cons b bs ih =>
    obtain ⟨next, hnext⟩ : ∃ next, next =
      if off < scratch.length then scratch.set off b else scratch := ⟨_, rfl⟩
    have hlen : j < next.length := by rw [hnext]; split <;> simpa using hj
    have hother (h : off ≠ j) : next[j]? = scratch[j]? := by
      rw [hnext]; split
      · rw [List.getElem?_set_ne h]
      · rfl
    rw [storeChunk, ← hnext, ih _ _ hlen, List.length_cons]
    rcases Nat.lt_trichotomy j off with h | h | h
    · rw [if_neg (by omega), if_neg (by omega), hother (by omega)]
    · subst h
      rw [if_neg (by omega), if_pos (by omega), hnext, if_pos hj]
      simp [List.getElem?_set_self hj]
    · have e : j - off = (j - (off + 1)) + 1 := by omega
      by_cases hc : j < off + 1 + bs.length
      · rw [if_pos (by omega), if_pos (by omega), e, List.getElem?_cons_succ]
      · rw [if_neg (by omega), if_neg (by omega), hother (by omega)]

/-- Two chunks one after the other are one longer chunk (R181). -/
theorem storeChunk_append (scratch : List Byte) (off : Nat) (bytes more : List Byte) :
    storeChunk scratch off (bytes ++ more) =
      storeChunk (storeChunk scratch off bytes) (off + bytes.length) more := by
  induction bytes generalizing scratch off with
  | nil => rfl
  | cons b bs ih =>
    simp only [List.cons_append, storeChunk, ih, List.length_cons]
    rw [show off + 1 + bs.length = off + (bs.length + 1) by omega]

/-- A payload stored from offset 0: as much of it as fits, and the old bytes behind it (R181, R188). -/
theorem storeChunk_zero (scratch bytes : List Byte) :
    storeChunk scratch 0 bytes = bytes.take scratch.length ++ scratch.drop bytes.length := by
  apply List.ext_getElem?
  intro j
  by_cases hj : j < scratch.length
  · rw [storeChunk_getElem? _ _ _ _ hj]
    by_cases hb : j < bytes.length
    · rw [if_pos (by omega), List.getElem?_append_left (by simp; omega), List.getElem?_take_of_lt hj]
      simp
    · rw [if_neg (by omega), List.getElem?_append_right (by simp; omega), List.getElem?_drop]
      simp only [List.length_take]
      congr 1; omega
  · rw [List.getElem?_eq_none (by simp; omega), List.getElem?_eq_none (by simp; omega)]

/-! The assembled report (R187, R189). -/

@[simp] theorem assembleReport_points_length (cfg : Config) (sw : BitVec 32) (scratch : List Byte) :
    (assembleReport cfg sw scratch).points.length = cfg.maxPoints := by
  simp [assembleReport, assemblePoints]

theorem recordCount_le (cfg : Config) (st : StatusWord) : recordCount cfg st ≤ cfg.maxPoints :=
  Nat.min_le_right _ _

/-- A counted record ends inside the payload and inside the buffer (R190). -/
theorem record_end_le {cfg : Config} {st : StatusWord} {i : Nat} (h : i < recordCount cfg st) :
    cfg.layout.hdrLen + (i + 1) * cfg.layout.recLen ≤
      min st.pendingLength.toNat cfg.scratchLen := by
  have hmax := recordCount_le cfg st
  unfold recordCount devCount at h
  split at h
  · rename_i hc
    simp only [Bool.and_eq_true, decide_eq_true_eq] at hc
    have h1 : i + 1 ≤ (st.pendingLength.toNat - cfg.layout.hdrLen) / cfg.layout.recLen := by omega
    have h2 := (Nat.le_div_iff_mul_le (config_recLen_pos cfg)).1 h1
    have h3 : (i + 1) * cfg.layout.recLen ≤ cfg.maxPoints * cfg.layout.recLen :=
      Nat.mul_le_mul_right _ (by omega)
    unfold Params.scratchLen
    omega
  · simp at h

/-! Bytes and words (R11). -/

theorem packWord_wordBytes (w : BitVec 32) :
    packWord (w.extractLsb' 0 8) (w.extractLsb' 8 8) (w.extractLsb' 16 8) (w.extractLsb' 24 8)
      = w := by
  apply BitVec.eq_of_getLsbD_eq
  intro i hi
  simp only [packWord, BitVec.getLsbD_append, BitVec.getLsbD_extractLsb']
  rcases Nat.lt_or_ge i 8 with h | h
  · simp [h]
  · rcases Nat.lt_or_ge i 16 with h2 | h2
    · simp [show ¬ i < 8 by omega, show i - 8 < 8 by omega, show 8 + (i - 8) = i by omega]
    · rcases Nat.lt_or_ge i 24 with h3 | h3
      · simp [show ¬ i < 8 by omega, show ¬ i - 8 < 8 by omega, show i - 8 - 8 < 8 by omega,
          show 16 + (i - 8 - 8) = i by omega]
      · simp [show ¬ i < 8 by omega, show ¬ i - 8 < 8 by omega, show ¬ i - 8 - 8 < 8 by omega,
          show i - 8 - 8 - 8 < 8 by omega, show 24 + (i - 8 - 8 - 8) = i by omega]

/-- Concatenation as a number: the left part above the right one. -/
theorem append_toNat {m n : Nat} (a : BitVec m) (b : BitVec n) :
    (a ++ b).toNat = a.toNat * 2 ^ n + b.toNat := by
  rw [BitVec.toNat_append, ← Nat.shiftLeft_add_eq_or_of_lt b.isLt, Nat.shiftLeft_eq]

theorem packWord_toNat (b0 b1 b2 b3 : Byte) : (packWord b0 b1 b2 b3).toNat =
    b0.toNat + 256 * b1.toNat + 65536 * b2.toNat + 16777216 * b3.toNat := by
  simp only [packWord, append_toNat]
  omega

theorem wordBytes_packWord (b0 b1 b2 b3 : Byte) :
    wordBytes (packWord b0 b1 b2 b3) = [b0, b1, b2, b3] := by
  have h0 := b0.isLt; have h1 := b1.isLt; have h2 := b2.isLt; have h3 := b3.isLt
  simp only [wordBytes, List.cons.injEq, and_true]
  refine ⟨?_, ?_, ?_, ?_⟩ <;> apply BitVec.eq_of_toNat_eq <;>
    simp only [BitVec.extractLsb'_toNat, packWord_toNat, Nat.shiftRight_eq_div_pow] <;> omega

end Sys2Proof.Machine
end

