-- ==== Sys2Proof/Laws/Decode.lean ====
section
/-! SUPPORT. The small lemmas of the decoder and the encoder. -/

namespace Sys2Proof

open Machine

@[simp] theorem nibbleOf_codeByte (c : BitVec 4) : nibbleOf (codeByte c) = .ok c := by
  revert c; decide

@[simp] theorem wordOf_wordBytes (w : BitVec 32) : wordOf (wordBytes w) = .ok w := by
  simp [wordBytes, wordOf, packWord_wordBytes]

/-- A byte sequence that is a 4-bit word is that word's byte. -/
theorem nibbleOf_eq_ok {bytes : List Byte} {c : BitVec 4} (h : nibbleOf bytes = .ok c) :
    bytes = codeByte c := by
  unfold nibbleOf at h
  split at h
  · rename_i b
    revert c
    revert b
    decide
  · cases h

/-- A byte sequence that is a 32-bit word is that word's bytes. -/
theorem wordOf_eq_ok {bytes : List Byte} {w : BitVec 32} (h : wordOf bytes = .ok w) :
    bytes = wordBytes w := by
  unfold wordOf at h
  split at h
  · cases h; rw [wordBytes_packWord]
  · cases h

/-- The high and the low half of a read request's word (R93). -/
@[simp] theorem readWord_reg (reg n : BitVec 16) :
    BitVec.extractLsb' 16 16 (reg ++ n : BitVec 32) = reg := by
  apply BitVec.eq_of_toNat_eq
  have h := n.isLt; have h2 := reg.isLt
  rw [BitVec.extractLsb'_toNat, append_toNat, Nat.shiftRight_eq_div_pow]
  omega

@[simp] theorem readWord_count (reg n : BitVec 16) :
    BitVec.extractLsb' 0 16 (reg ++ n : BitVec 32) = n := by
  apply BitVec.eq_of_toNat_eq
  have h := n.isLt; have h2 := reg.isLt
  rw [BitVec.extractLsb'_toNat, append_toNat, Nat.shiftRight_eq_div_pow]
  omega

/-- The payload of a control write's word (R92). -/
theorem writeWord_payload (reg : BitVec 16) (pl : Payload) :
    ({ p0 := BitVec.extractLsb' 8 8 (reg ++ (pl.p0 ++ pl.p1) : BitVec 32)
       p1 := BitVec.extractLsb' 0 8 (reg ++ (pl.p0 ++ pl.p1) : BitVec 32) } : Payload) = pl := by
  obtain ⟨p0, p1⟩ := pl
  have h := p0.isLt; have h1 := p1.isLt; have h2 := reg.isLt
  congr 1 <;> apply BitVec.eq_of_toNat_eq <;>
    rw [BitVec.extractLsb'_toNat, append_toNat, append_toNat, Nat.shiftRight_eq_div_pow] <;>
    dsimp only <;> omega

/-- The scan of the decode map ends at a row of the payload it scans (R96). -/
theorem selectRow_cases (cfg : Config) (sw : BitVec 32) :
    selectRow cfg sw = .branch1 sw ∨ selectRow cfg sw = .branch2 sw ∨
    selectRow cfg sw = .branch3 sw ∨ selectRow cfg sw = .branch4Pt sw ∨
    selectRow cfg sw = .branch4Ges sw ∨ selectRow cfg sw = .branch5 sw ∨
    selectRow cfg sw = .branch6 sw := by
  unfold selectRow
  repeat' split
  all_goals simp

/-- The four command addresses tell the control writes apart (R72, R102). -/
theorem commands_ne (cfg : Config) :
    cfg.regClearInt ≠ cfg.regStartCpu ∧ cfg.regClearInt ≠ cfg.regPointMode ∧
    cfg.regClearInt ≠ cfg.regStartSampling ∧ cfg.regStartCpu ≠ cfg.regPointMode ∧
    cfg.regStartCpu ≠ cfg.regStartSampling ∧ cfg.regPointMode ≠ cfg.regStartSampling := by
  have h := config_commandsDistinct cfg
  simp only [Params.commandsDistinct, Bool.and_eq_true, bne_iff_ne, ne_eq] at h
  tauto

/-! The rows of the decode map (R96), as the bits they test. -/

/-- A row whose mask is one bit tests that bit. -/
theorem rowMatches_bit (sw : BitVec 32) (i : Nat) (hi : i < 32) :
    rowMatches sw (BitVec.twoPow 32 i) (BitVec.twoPow 32 i) = sw.getLsbD i := by
  unfold rowMatches
  rw [BitVec.and_twoPow]
  split
  · simp [*]
  · rename_i h
    simp only [Bool.not_eq_true] at h
    rw [h]
    simp only [beq_eq_false_iff_ne, ne_eq]
    intro e
    have he := congrArg (fun v => BitVec.getLsbD v i) e
    simp [hi] at he

/-- The third row tests bit 11 and a zero length. -/
theorem rowMatches_empty (sw : BitVec 32) : rowMatches sw 0xFFFF0800 0x00000800 =
    (sw.getLsbD 11 && (sw.extractLsb' 16 16 == 0)) := by
  have high : ∀ i : Fin 32, 16 ≤ i.val →
      (0xFFFF0800 : BitVec 32).getLsbD i.val = true ∧
      (0x00000800 : BitVec 32).getLsbD i.val = false := by decide
  have low : ∀ i : Fin 32, i.val < 16 → i.val = 11 ∨
      ((0xFFFF0800 : BitVec 32).getLsbD i.val = false ∧
       (0x00000800 : BitVec 32).getLsbD i.val = false) := by decide
  unfold rowMatches
  rw [Bool.eq_iff_iff]
  simp only [beq_iff_eq, Bool.and_eq_true]
  constructor
  · intro h
    have b : ∀ i, (sw &&& 0xFFFF0800).getLsbD i = (0x00000800 : BitVec 32).getLsbD i :=
      fun i => by rw [h]
    refine ⟨by simpa [BitVec.getLsbD_and] using b 11, ?_⟩
    apply BitVec.eq_of_getLsbD_eq
    intro i hi
    obtain ⟨m, v⟩ := high ⟨16 + i, by omega⟩ (by simp)
    have hb := b (16 + i)
    rw [BitVec.getLsbD_and, m, v] at hb
    simpa [hi] using hb
  · rintro ⟨h1, h2⟩
    apply BitVec.eq_of_getLsbD_eq
    intro i hi
    rw [BitVec.getLsbD_and]
    by_cases h16 : 16 ≤ i
    · obtain ⟨m, v⟩ := high ⟨i, hi⟩ h16
      have hz := congrArg (fun v => BitVec.getLsbD v (i - 16)) h2
      simp only [BitVec.getLsbD_extractLsb',
        show 16 + (i - 16) = i by omega] at hz
      simp only [show i - 16 < 16 by omega, decide_true, Bool.true_and] at hz
      rw [hz, v]; simp
    · rcases low ⟨i, hi⟩ (by simp; omega) with h | ⟨m, v⟩
      · simp only at h; subst h; rw [h1]; decide
      · rw [m, v]; simp

/-- The row of branch 5 tests bits 11 and 3. -/
theorem rowMatches_event (sw : BitVec 32) : rowMatches sw 0x00000808 0x00000808 =
    (sw.getLsbD 11 && sw.getLsbD 3) := by
  have m : ∀ i : Fin 32, i.val = 11 ∨ i.val = 3 ∨ (0x00000808 : BitVec 32).getLsbD i.val = false := by
    decide
  unfold rowMatches
  rw [Bool.eq_iff_iff]
  simp only [beq_iff_eq, Bool.and_eq_true]
  constructor
  · intro h
    have b : ∀ i, (sw &&& 0x00000808).getLsbD i = (0x00000808 : BitVec 32).getLsbD i :=
      fun i => by rw [h]
    exact ⟨by simpa [BitVec.getLsbD_and] using b 11, by simpa [BitVec.getLsbD_and] using b 3⟩
  · rintro ⟨h1, h2⟩
    apply BitVec.eq_of_getLsbD_eq
    intro i hi
    rw [BitVec.getLsbD_and]
    rcases m ⟨i, hi⟩ with h | h | h
    · simp only at h; subst h; rw [h1]; decide
    · simp only at h; subst h; rw [h2]; decide
    · rw [h]; simp

end Sys2Proof
end

