-- ==== Sys2Proof/Laws/State.lean ====
section
/-! SUPPORT. One lemma per field per named update of the state, each true by rfl, so that no proof unfolds a
record update. -/

namespace Sys2Proof.Machine

/-! `emit` -/

@[simp] theorem emit_cfg (line : TraceLine) (s : State) : (emit line s).cfg = s.cfg := rfl
@[simp] theorem emit_latch (line : TraceLine) (s : State) : (emit line s).latch = s.latch := rfl
@[simp] theorem emit_tb (line : TraceLine) (s : State) : (emit line s).tb = s.tb := rfl
@[simp] theorem emit_upc (line : TraceLine) (s : State) : (emit line s).upc = s.upc := rfl
@[simp] theorem emit_sw (line : TraceLine) (s : State) : (emit line s).sw = s.sw := rfl
@[simp] theorem emit_rem (line : TraceLine) (s : State) : (emit line s).rem = s.rem := rfl
@[simp] theorem emit_off (line : TraceLine) (s : State) : (emit line s).off = s.off := rfl
@[simp] theorem emit_scratch (line : TraceLine) (s : State) :
    (emit line s).scratch = s.scratch := rfl
@[simp] theorem emit_res (line : TraceLine) (s : State) : (emit line s).res = s.res := rfl
@[simp] theorem emit_inbox (line : TraceLine) (s : State) : (emit line s).inbox = s.inbox := rfl
@[simp] theorem emit_answers (line : TraceLine) (s : State) :
    (emit line s).answers = s.answers := rfl
@[simp] theorem emit_fresh (line : TraceLine) (s : State) : (emit line s).fresh = s.fresh := rfl
@[simp] theorem emit_trace (line : TraceLine) (s : State) :
    (emit line s).trace = line :: s.trace := rfl

/-! `clearCount` -/

@[simp] theorem clearCount_cfg (s : State) : (clearCount s).cfg = s.cfg := rfl
@[simp] theorem clearCount_latch (s : State) : (clearCount s).latch = s.latch := rfl
@[simp] theorem clearCount_tb (s : State) : (clearCount s).tb = { s.tb with touchNum := 0 } := rfl
@[simp] theorem clearCount_upc (s : State) : (clearCount s).upc = s.upc := rfl
@[simp] theorem clearCount_sw (s : State) : (clearCount s).sw = s.sw := rfl
@[simp] theorem clearCount_rem (s : State) : (clearCount s).rem = s.rem := rfl
@[simp] theorem clearCount_off (s : State) : (clearCount s).off = s.off := rfl
@[simp] theorem clearCount_scratch (s : State) : (clearCount s).scratch = s.scratch := rfl
@[simp] theorem clearCount_res (s : State) : (clearCount s).res = s.res := rfl
@[simp] theorem clearCount_inbox (s : State) : (clearCount s).inbox = s.inbox := rfl
@[simp] theorem clearCount_answers (s : State) : (clearCount s).answers = s.answers := rfl
@[simp] theorem clearCount_fresh (s : State) : (clearCount s).fresh = s.fresh := rfl
@[simp] theorem clearCount_trace (s : State) : (clearCount s).trace = s.trace := rfl

/-! `advance` -/

@[simp] theorem advance_cfg (s : State) : (advance s).cfg = s.cfg := rfl
@[simp] theorem advance_latch (s : State) : (advance s).latch = s.latch := rfl
@[simp] theorem advance_tb (s : State) : (advance s).tb = s.tb := rfl
@[simp] theorem advance_upc (s : State) : (advance s).upc = nextUpc s.upc := rfl
@[simp] theorem advance_sw (s : State) : (advance s).sw = s.sw := rfl
@[simp] theorem advance_rem (s : State) : (advance s).rem = s.rem := rfl
@[simp] theorem advance_off (s : State) : (advance s).off = s.off := rfl
@[simp] theorem advance_scratch (s : State) : (advance s).scratch = s.scratch := rfl
@[simp] theorem advance_res (s : State) : (advance s).res = s.res := rfl
@[simp] theorem advance_inbox (s : State) : (advance s).inbox = s.inbox := rfl
@[simp] theorem advance_answers (s : State) : (advance s).answers = s.answers := rfl
@[simp] theorem advance_fresh (s : State) : (advance s).fresh = s.fresh := rfl
@[simp] theorem advance_trace (s : State) : (advance s).trace = s.trace := rfl

/-! `startCycle` -/

@[simp] theorem startCycle_cfg (s : State) : (startCycle s).cfg = s.cfg := rfl
@[simp] theorem startCycle_latch (s : State) : (startCycle s).latch = s.latch := rfl
@[simp] theorem startCycle_tb (s : State) : (startCycle s).tb = s.tb := rfl
@[simp] theorem startCycle_upc (s : State) : (startCycle s).upc = .run 0 := rfl
@[simp] theorem startCycle_sw (s : State) : (startCycle s).sw = s.sw := rfl
@[simp] theorem startCycle_rem (s : State) : (startCycle s).rem = s.rem := rfl
@[simp] theorem startCycle_off (s : State) : (startCycle s).off = s.off := rfl
@[simp] theorem startCycle_scratch (s : State) : (startCycle s).scratch = s.scratch := rfl
@[simp] theorem startCycle_res (s : State) :
    (startCycle s).res = { code := .running, branch := none, loc := 0 } := rfl
@[simp] theorem startCycle_inbox (s : State) : (startCycle s).inbox = s.inbox := rfl
@[simp] theorem startCycle_answers (s : State) : (startCycle s).answers = s.answers := rfl
@[simp] theorem startCycle_fresh (s : State) : (startCycle s).fresh = s.fresh := rfl
@[simp] theorem startCycle_trace (s : State) : (startCycle s).trace = .poll :: s.trace := rfl

/-! `returnNoEvent` -/

@[simp] theorem returnNoEvent_cfg (s : State) : (returnNoEvent s).cfg = s.cfg := rfl
@[simp] theorem returnNoEvent_latch (s : State) : (returnNoEvent s).latch = s.latch := rfl
@[simp] theorem returnNoEvent_tb (s : State) : (returnNoEvent s).tb = s.tb := rfl
@[simp] theorem returnNoEvent_upc (s : State) : (returnNoEvent s).upc = s.upc := rfl
@[simp] theorem returnNoEvent_sw (s : State) : (returnNoEvent s).sw = s.sw := rfl
@[simp] theorem returnNoEvent_rem (s : State) : (returnNoEvent s).rem = s.rem := rfl
@[simp] theorem returnNoEvent_off (s : State) : (returnNoEvent s).off = s.off := rfl
@[simp] theorem returnNoEvent_scratch (s : State) : (returnNoEvent s).scratch = s.scratch := rfl
@[simp] theorem returnNoEvent_res (s : State) : (returnNoEvent s).res = resultNone := rfl
@[simp] theorem returnNoEvent_inbox (s : State) : (returnNoEvent s).inbox = s.inbox := rfl
@[simp] theorem returnNoEvent_answers (s : State) : (returnNoEvent s).answers = s.answers := rfl
@[simp] theorem returnNoEvent_fresh (s : State) : (returnNoEvent s).fresh = s.fresh := rfl
@[simp] theorem returnNoEvent_trace (s : State) :
    (returnNoEvent s).trace = .pollDone resultNone :: .poll :: s.trace := rfl

/-! `raiseFailure` -/

@[simp] theorem raiseFailure_cfg (f : ResCode) (loc : Fin 23) (s : State) :
    (raiseFailure f loc s).cfg = s.cfg := rfl
@[simp] theorem raiseFailure_latch (f : ResCode) (loc : Fin 23) (s : State) :
    (raiseFailure f loc s).latch = s.latch := rfl
@[simp] theorem raiseFailure_tb (f : ResCode) (loc : Fin 23) (s : State) :
    (raiseFailure f loc s).tb = s.tb := rfl
@[simp] theorem raiseFailure_upc (f : ResCode) (loc : Fin 23) (s : State) :
    (raiseFailure f loc s).upc = .idle := rfl
@[simp] theorem raiseFailure_sw (f : ResCode) (loc : Fin 23) (s : State) :
    (raiseFailure f loc s).sw = s.sw := rfl
@[simp] theorem raiseFailure_rem (f : ResCode) (loc : Fin 23) (s : State) :
    (raiseFailure f loc s).rem = s.rem := rfl
@[simp] theorem raiseFailure_off (f : ResCode) (loc : Fin 23) (s : State) :
    (raiseFailure f loc s).off = s.off := rfl
@[simp] theorem raiseFailure_scratch (f : ResCode) (loc : Fin 23) (s : State) :
    (raiseFailure f loc s).scratch = s.scratch := rfl
@[simp] theorem raiseFailure_res (f : ResCode) (loc : Fin 23) (s : State) :
    (raiseFailure f loc s).res = { code := f, branch := s.res.branch, loc := loc } := rfl
@[simp] theorem raiseFailure_inbox (f : ResCode) (loc : Fin 23) (s : State) :
    (raiseFailure f loc s).inbox = s.inbox := rfl
@[simp] theorem raiseFailure_answers (f : ResCode) (loc : Fin 23) (s : State) :
    (raiseFailure f loc s).answers = s.answers := rfl
@[simp] theorem raiseFailure_fresh (f : ResCode) (loc : Fin 23) (s : State) :
    (raiseFailure f loc s).fresh = s.fresh := rfl
@[simp] theorem raiseFailure_trace (f : ResCode) (loc : Fin 23) (s : State) :
    (raiseFailure f loc s).trace = .pollDone { code := f, branch := s.res.branch, loc := loc } :: s.trace := rfl

/-! `finishCycle` -/

@[simp] theorem finishCycle_cfg (s : State) : (finishCycle s).cfg = s.cfg := rfl
@[simp] theorem finishCycle_latch (s : State) : (finishCycle s).latch = s.latch := rfl
@[simp] theorem finishCycle_tb (s : State) : (finishCycle s).tb = s.tb := rfl
@[simp] theorem finishCycle_upc (s : State) : (finishCycle s).upc = .idle := rfl
@[simp] theorem finishCycle_sw (s : State) : (finishCycle s).sw = s.sw := rfl
@[simp] theorem finishCycle_rem (s : State) : (finishCycle s).rem = s.rem := rfl
@[simp] theorem finishCycle_off (s : State) : (finishCycle s).off = s.off := rfl
@[simp] theorem finishCycle_scratch (s : State) : (finishCycle s).scratch = s.scratch := rfl
@[simp] theorem finishCycle_res (s : State) :
    (finishCycle s).res = { s.res with code := .ok } := rfl
@[simp] theorem finishCycle_inbox (s : State) : (finishCycle s).inbox = s.inbox := rfl
@[simp] theorem finishCycle_answers (s : State) : (finishCycle s).answers = s.answers := rfl
@[simp] theorem finishCycle_fresh (s : State) : (finishCycle s).fresh = s.fresh := rfl
@[simp] theorem finishCycle_trace (s : State) :
    (finishCycle s).trace = .pollDone { s.res with code := .ok } :: s.trace := rfl

/-! `enterBranch` -/

@[simp] theorem enterBranch_cfg (b : Branch) (sw : BitVec 32) (s : State) :
    (enterBranch b sw s).cfg = s.cfg := rfl
@[simp] theorem enterBranch_latch (b : Branch) (sw : BitVec 32) (s : State) :
    (enterBranch b sw s).latch = s.latch := rfl
@[simp] theorem enterBranch_tb (b : Branch) (sw : BitVec 32) (s : State) :
    (enterBranch b sw s).tb = s.tb := rfl
@[simp] theorem enterBranch_upc (b : Branch) (sw : BitVec 32) (s : State) :
    (enterBranch b sw s).upc = .run (branchEntry b) := rfl
@[simp] theorem enterBranch_sw (b : Branch) (sw : BitVec 32) (s : State) :
    (enterBranch b sw s).sw = s.sw := rfl
@[simp] theorem enterBranch_rem (b : Branch) (sw : BitVec 32) (s : State) :
    (enterBranch b sw s).rem = if b = .b4 then (decodeStatus sw).pendingLength else s.rem := rfl
@[simp] theorem enterBranch_off (b : Branch) (sw : BitVec 32) (s : State) :
    (enterBranch b sw s).off = if b = .b4 then 0 else s.off := rfl
@[simp] theorem enterBranch_scratch (b : Branch) (sw : BitVec 32) (s : State) :
    (enterBranch b sw s).scratch = s.scratch := rfl
@[simp] theorem enterBranch_res (b : Branch) (sw : BitVec 32) (s : State) :
    (enterBranch b sw s).res = { s.res with branch := some b } := rfl
@[simp] theorem enterBranch_inbox (b : Branch) (sw : BitVec 32) (s : State) :
    (enterBranch b sw s).inbox = s.inbox := rfl
@[simp] theorem enterBranch_answers (b : Branch) (sw : BitVec 32) (s : State) :
    (enterBranch b sw s).answers = s.answers := rfl
@[simp] theorem enterBranch_fresh (b : Branch) (sw : BitVec 32) (s : State) :
    (enterBranch b sw s).fresh = s.fresh := rfl
@[simp] theorem enterBranch_trace (b : Branch) (sw : BitVec 32) (s : State) :
    (enterBranch b sw s).trace = s.trace := rfl

/-! `consume` -/

@[simp] theorem consume_cfg (s : State) : (consume s).cfg = s.cfg := rfl
@[simp] theorem consume_latch (s : State) : (consume s).latch = s.latch := rfl
@[simp] theorem consume_tb (s : State) : (consume s).tb = s.tb := rfl
@[simp] theorem consume_upc (s : State) : (consume s).upc = s.upc := rfl
@[simp] theorem consume_sw (s : State) : (consume s).sw = s.sw := rfl
@[simp] theorem consume_rem (s : State) : (consume s).rem = s.rem := rfl
@[simp] theorem consume_off (s : State) : (consume s).off = s.off := rfl
@[simp] theorem consume_scratch (s : State) : (consume s).scratch = s.scratch := rfl
@[simp] theorem consume_res (s : State) : (consume s).res = s.res := rfl
@[simp] theorem consume_inbox (s : State) : (consume s).inbox = s.inbox.tail := rfl
@[simp] theorem consume_answers (s : State) : (consume s).answers = s.answers := rfl
@[simp] theorem consume_fresh (s : State) : (consume s).fresh = s.fresh := rfl
@[simp] theorem consume_trace (s : State) : (consume s).trace = s.trace := rfl

end Sys2Proof.Machine
end

