-- ==== Sys2Proof/Laws/Ops.lean ====
section
/-! SUPPORT. What each shared operation can do, said once. -/

namespace Sys2Proof.Machine

/-! The environment's answer changes the queue or the counter and nothing else. -/

@[simp] theorem takeAnswer_cfg (n : Nat) (s : State) : (takeAnswer n s).2.cfg = s.cfg := by
  unfold takeAnswer; split <;> rfl
@[simp] theorem takeAnswer_latch (n : Nat) (s : State) : (takeAnswer n s).2.latch = s.latch := by
  unfold takeAnswer; split <;> rfl
@[simp] theorem takeAnswer_tb (n : Nat) (s : State) : (takeAnswer n s).2.tb = s.tb := by
  unfold takeAnswer; split <;> rfl
@[simp] theorem takeAnswer_upc (n : Nat) (s : State) : (takeAnswer n s).2.upc = s.upc := by
  unfold takeAnswer; split <;> rfl
@[simp] theorem takeAnswer_sw (n : Nat) (s : State) : (takeAnswer n s).2.sw = s.sw := by
  unfold takeAnswer; split <;> rfl
@[simp] theorem takeAnswer_rem (n : Nat) (s : State) : (takeAnswer n s).2.rem = s.rem := by
  unfold takeAnswer; split <;> rfl
@[simp] theorem takeAnswer_off (n : Nat) (s : State) : (takeAnswer n s).2.off = s.off := by
  unfold takeAnswer; split <;> rfl
@[simp] theorem takeAnswer_scratch (n : Nat) (s : State) :
    (takeAnswer n s).2.scratch = s.scratch := by
  unfold takeAnswer; split <;> rfl
@[simp] theorem takeAnswer_res (n : Nat) (s : State) : (takeAnswer n s).2.res = s.res := by
  unfold takeAnswer; split <;> rfl
@[simp] theorem takeAnswer_inbox (n : Nat) (s : State) : (takeAnswer n s).2.inbox = s.inbox := by
  unfold takeAnswer; split <;> rfl
@[simp] theorem takeAnswer_trace (n : Nat) (s : State) : (takeAnswer n s).2.trace = s.trace := by
  unfold takeAnswer; split <;> rfl

/-- A free answer is one the contract of `BusRead` allows (R62). -/
theorem freeAnswer_length {c n : Nat} {bytes : List Byte} (h : freeAnswer c n = .ok bytes) :
    bytes.length ≤ n := by
  unfold freeAnswer at h
  split at h
  · cases h; simp
  · cases h

/-- An answer that fits has at most `n` bytes, whether queued or free (R62, U7). -/
theorem answerFits_iff (n : Nat) (s : State) :
    answerFits n s = true ↔ ∀ bytes, (takeAnswer n s).1 = .ok bytes → bytes.length ≤ n := by
  unfold answerFits takeAnswer
  rcases s.answers with _ | ⟨_ | b, rest⟩
  · simpa using fun bytes h => freeAnswer_length h
  · simp
  · simp

@[simp] theorem completeBytes_eq_some {a : BusAnswer} {n : Nat} {bytes : List Byte} :
    completeBytes a n = some bytes ↔ a = .ok bytes ∧ n ≤ bytes.length := by
  unfold completeBytes
  rcases a with _ | b
  · simp
  · by_cases h : n ≤ b.length <;> simp [h]
    · rintro rfl; exact h
    · rintro rfl; omega

@[simp] theorem completeBytes_eq_none {a : BusAnswer} {n : Nat} :
    completeBytes a n = none ↔ ∀ bytes, a = .ok bytes → bytes.length < n := by
  unfold completeBytes
  rcases a with _ | b <;> simp

@[simp] theorem writeOk_eq_true {a : BusAnswer} : writeOk a = true ↔ a ≠ .fail := by
  cases a <;> simp [writeOk]

@[simp] theorem writeOk_eq_false {a : BusAnswer} : writeOk a = false ↔ a = .fail := by
  cases a <;> simp [writeOk]

/-! The gates. -/

theorem atIndexOf_next {op : Instr} {s t : State} {act : StepOutcome}
    (h : atIndexOf op s act = .next t) : holdsAt s.upc op = true ∧ act = .next t := by
  unfold atIndexOf at h
  split at h
  · exact ⟨‹_›, h⟩
  · cases h

theorem atIndexOf_of_holds {op : Instr} {s : State} {act : StepOutcome}
    (h : holdsAt s.upc op = true) : atIndexOf op s act = act := if_pos h

theorem ifAnswerFits_next {n : Nat} {s t u : State} (h : ifAnswerFits n s t = .next u) :
    answerFits n s = true ∧ u = t := by
  unfold ifAnswerFits at h
  split at h
  · cases h; exact ⟨‹_›, rfl⟩
  · cases h

/-- A micro-op stands at an index of the micro-program only. -/
theorem holdsAt_iff {u : Upc} {op : Instr} : holdsAt u op = true ↔ ∃ k, u = .run k ∧ microAt k = op := by
  cases u <;> simp [holdsAt]

/-- The indices of each micro-op (R141). -/
theorem microAt_rdst {k : Fin 23} : microAt k = .rdst ↔ k = 0 := by revert k; decide
theorem microAt_disp {k : Fin 23} : microAt k = .disp ↔ k = 1 := by revert k; decide
theorem microAt_wclr {k : Fin 23} : microAt k = .wclr ↔ k ∈ [2, 8, 11, 16, 19] := by
  revert k; decide
theorem microAt_wcpu {k : Fin 23} : microAt k = .wcpu ↔ k = 3 := by revert k; decide
theorem microAt_wptm {k : Fin 23} : microAt k = .wptm ↔ k = 6 := by revert k; decide
theorem microAt_wsta {k : Fin 23} : microAt k = .wsta ↔ k = 7 := by revert k; decide
theorem microAt_rdpt {k : Fin 23} : microAt k = .rdpt ↔ k = 14 := by revert k; decide
theorem microAt_publ {k : Fin 23} : microAt k = .publ ↔ k = 15 := by revert k; decide
theorem microAt_lclr {k : Fin 23} : microAt k = .lclr ↔ k ∈ [4, 9, 12, 17, 20] := by
  revert k; decide
theorem microAt_done {k : Fin 23} : microAt k = .done ↔ k ∈ [5, 10, 13, 18, 21, 22] := by
  revert k; decide

/-- The micro-program holds micro-ops only (R141). -/
theorem microAt_cases (k : Fin 23) :
    microAt k = .rdst ∨ microAt k = .disp ∨ microAt k = .wclr ∨ microAt k = .wcpu ∨
    microAt k = .wptm ∨ microAt k = .wsta ∨ microAt k = .rdpt ∨ microAt k = .publ ∨
    microAt k = .lclr ∨ microAt k = .done := by
  revert k; decide

/-- Below 22 the next index is one further (R27). -/
theorem nextUpc_run {k : Fin 23} (h : k.val < 22) : nextUpc (.run k) = .run (k + 1) := by
  revert k; decide

/-! The control write (R159): the write's success moves on, its failure raises FAIL_WRITE. -/

theorem controlWrite_ok {reg : BitVec 16} {pl : Payload} {s : State}
    (h : (takeAnswer 0 s).1 ≠ .fail) :
    controlWrite reg pl s = { (takeAnswer 0 s).2 with
      upc := nextUpc s.upc
      trace := .settle s.cfg.tSettle :: .wr s.cfg.devAddr reg pl.p0 pl.p1 true :: s.trace } := by
  have hw : writeOk (takeAnswer 0 s).1 = true := writeOk_eq_true.2 h
  simp [controlWrite, busWrite, hw, advance, emit]

theorem controlWrite_fail {reg : BitVec 16} {pl : Payload} {s : State}
    (h : (takeAnswer 0 s).1 = .fail) :
    controlWrite reg pl s = raiseFailure .failWrite (upcIndex s.upc) { (takeAnswer 0 s).2 with
      trace := .settle s.cfg.tSettle :: .wr s.cfg.devAddr reg pl.p0 pl.p1 false :: s.trace } := by
  have hw : writeOk (takeAnswer 0 s).1 = false := writeOk_eq_false.2 h
  simp [controlWrite, busWrite, hw, emit]

/-! The status read (R144). -/

theorem readStatus_ok {s : State} {bytes : List Byte} (h : (takeAnswer 4 s).1 = .ok bytes)
    (hl : 4 ≤ bytes.length) :
    readStatus s = { (takeAnswer 4 s).2 with
      sw := packStatus bytes
      upc := .run 1
      trace := .rd s.cfg.devAddr s.cfg.regStatus 4 (takeAnswer 4 s).1 :: s.trace } := by
  have hc : completeBytes (takeAnswer 4 s).1 4 = some bytes := completeBytes_eq_some.2 ⟨h, hl⟩
  simp [readStatus, busRead, hc, emit]

theorem readStatus_fail {s : State}
    (h : ∀ bytes, (takeAnswer 4 s).1 = .ok bytes → bytes.length < 4) :
    readStatus s = raiseFailure .failStatus 0 { (takeAnswer 4 s).2 with
      trace := .rd s.cfg.devAddr s.cfg.regStatus 4 (takeAnswer 4 s).1 :: s.trace } := by
  have hc : completeBytes (takeAnswer 4 s).1 4 = none := completeBytes_eq_none.2 h
  simp [readStatus, busRead, hc, emit]

/-! The payload chunk (R181). -/

theorem readChunk_ok {s : State} {bytes : List Byte}
    (h : (takeAnswer (chunkSize s.cfg s.rem) s).1 = .ok bytes)
    (hl : chunkSize s.cfg s.rem ≤ bytes.length) :
    readChunk s = { (takeAnswer (chunkSize s.cfg s.rem) s).2 with
      scratch := storeChunk s.scratch s.off.toNat bytes
      off := s.off + BitVec.ofNat 16 (chunkSize s.cfg s.rem)
      rem := s.rem - BitVec.ofNat 16 (chunkSize s.cfg s.rem)
      trace := .rd s.cfg.devAddr s.cfg.regPointData (chunkSize s.cfg s.rem)
        (takeAnswer (chunkSize s.cfg s.rem) s).1 :: s.trace } := by
  have hc : completeBytes (takeAnswer (chunkSize s.cfg s.rem) s).1 (chunkSize s.cfg s.rem)
      = some bytes := completeBytes_eq_some.2 ⟨h, hl⟩
  simp [readChunk, busRead, hc, emit]

theorem readChunk_fail {s : State}
    (h : ∀ bytes, (takeAnswer (chunkSize s.cfg s.rem) s).1 = .ok bytes →
      bytes.length < chunkSize s.cfg s.rem) :
    readChunk s = raiseFailure .failData 14 { (takeAnswer (chunkSize s.cfg s.rem) s).2 with
      trace := .rd s.cfg.devAddr s.cfg.regPointData (chunkSize s.cfg s.rem)
        (takeAnswer (chunkSize s.cfg s.rem) s).1 :: s.trace } := by
  have hc : completeBytes (takeAnswer (chunkSize s.cfg s.rem) s).1 (chunkSize s.cfg s.rem)
      = none := completeBytes_eq_none.2 h
  simp [readChunk, busRead, hc, emit]

end Sys2Proof.Machine
end

