-- ==== Sys2Proof/Laws/Inv.lean ====
section
/-! SUPPORT. How the invariants are met: an idle state, a state in flight, a state that differs in nothing an
invariant reads; and the reads of one chunk more. -/

namespace Sys2Proof.Machine

/-- An idle state meets the invariant through its buffers, its result and its latch. -/
theorem Inv.of_idle {s : State} (slots : s.tb.points.length = s.cfg.maxPoints)
    (count : s.tb.touchNum ≤ s.cfg.maxPoints) (scratchLen : s.scratch.length = s.cfg.scratchLen)
    (hu : s.upc = .idle) (hr : s.res.code ≠ .running)
    (resLoc : isFailure s.res.code = false → s.res.loc = 0)
    (failed : isFailure s.res.code = true → s.latch = true)
    (unmatched : s.res.code = .ok → s.res.branch = some .b6 → s.latch = true) : Inv s :=
  ⟨slots, count, scratchLen, by simp [hu, hr], resLoc, by simp [hu], by simp [hu], by simp [hu],
    by simp [hu], by simp [hu], failed, unmatched⟩

/-- A state in flight meets the invariant through what its index asks. -/
theorem Inv.of_run {s : State} (k : Fin 23) (slots : s.tb.points.length = s.cfg.maxPoints)
    (count : s.tb.touchNum ≤ s.cfg.maxPoints) (scratchLen : s.scratch.length = s.cfg.scratchLen)
    (hu : s.upc = .run k) (hr : s.res.code = .running) (resLoc : s.res.loc = 0)
    (resBranch : s.res.branch = branchAt k)
    (chosen : 2 ≤ k.val → branchAt k = some (branchOf s.cfg (decodeStatus s.sw)))
    (latch : latchHeldAt k = true → s.latch = true)
    (payload : branchAt k = some .b4 →
      s.off.toNat + s.rem.toNat = (decodeStatus s.sw).pendingLength.toNat)
    (complete : branchAt k = some .b4 → 15 ≤ k.val → s.rem = 0) : Inv s := by
  refine ⟨slots, count, scratchLen, by simp [hu, hr], fun _ => resLoc, ?_, ?_, ?_, ?_, ?_,
    by simp [hr, isFailure], by simp [hr]⟩ <;>
  · intro k' h; rw [hu] at h; cases h; assumption

/-- The invariant does not read the requests. -/
theorem Inv.consume {s : State} (h : Inv s) : Inv (consume s) :=
  ⟨h.1, h.2, h.3, h.4, h.5, h.6, h.7, h.8, h.9, h.10, h.11, h.12⟩

/-- The facts of an index from which a run goes straight on. -/
theorem next_index_facts : ∀ k : Fin 23, k ∉ [0, 1, 5, 10, 13, 14, 18, 21, 22] →
    k.val < 22 ∧ branchAt (k + 1) = branchAt k ∧ 2 ≤ k.val ∧
    (branchAt k = some .b4 → 15 ≤ k.val) ∧ latchHeldAt k = true := by decide

/-- A line that is neither a write nor POLL adds nothing to a cycle's writes. -/
theorem cycleWrites_cons {s t : State} {line : TraceLine} (ht : t.trace = line :: s.trace)
    (hw : ∀ dev reg p0 p1 ok, line ≠ .wr dev reg p0 p1 ok) (hp : line ≠ .poll) :
    cycleWrites t = cycleWrites s := by
  unfold cycleWrites; rw [ht]
  cases line <;> first | exact absurd rfl (hw _ _ _ _ _) | exact absurd rfl hp | rfl

/-- A line that is neither a read nor POLL adds nothing to a cycle's reads. -/
theorem cycleReads_cons {s t : State} {line : TraceLine} (ht : t.trace = line :: s.trace)
    (hr : ∀ dev reg n answer, line ≠ .rd dev reg n answer) (hp : line ≠ .poll) :
    cycleReads t = cycleReads s := by
  unfold cycleReads; rw [ht]
  cases line <;> first | exact absurd rfl (hr _ _ _ _) | exact absurd rfl hp | rfl

/-- One chunk more, after chunks that were all full (R69, R181). -/
theorem chunkSizes_add (cfg : Config) (off c : Nat) (h0 : off % cfg.maxXfer = 0) (h1 : 1 ≤ c)
    (h2 : c ≤ cfg.maxXfer) : chunkSizes cfg (off + c) = chunkSizes cfg off ++ [c] := by
  have hp := config_maxXfer_pos cfg
  unfold chunkSizes
  rw [if_pos h0]
  obtain ⟨q, rfl⟩ := Nat.dvd_of_mod_eq_zero h0
  rw [Nat.mul_div_cancel_left _ hp, Nat.mul_add_div hp, Nat.mul_add_mod]
  rcases Nat.lt_or_eq_of_le h2 with h | rfl
  · rw [Nat.div_eq_of_lt h, Nat.mod_eq_of_lt h, if_neg (by omega)]; simp
  · rw [Nat.div_self hp, Nat.mod_self]; simp [List.replicate_succ']

theorem chunkReads_add (cfg : Config) (off c : Nat) (h0 : off % cfg.maxXfer = 0) (h1 : 1 ≤ c)
    (h2 : c ≤ cfg.maxXfer) :
    chunkReads cfg (off + c) = chunkReads cfg off ++ [payloadRead cfg c true] := by
  rw [chunkReads, chunkSizes_add cfg off c h0 h1 h2, List.map_append]; rfl

@[simp] theorem chunkSizes_zero (cfg : Config) : chunkSizes cfg 0 = [] := by simp [chunkSizes]

/-- The first chunk of some bytes is `min(REM, MAX_XFER)` long, and the others are the chunks of what is left
(R101, R181). -/
theorem chunkSizes_eq_cons {cfg : Config} {total c : Nat} {cs : List Nat}
    (h : chunkSizes cfg total = c :: cs) :
    total ≠ 0 ∧ c = min total cfg.maxXfer ∧ cs = chunkSizes cfg (total - c) := by
  have hp := config_maxXfer_pos cfg
  unfold chunkSizes at h ⊢
  by_cases hl : total < cfg.maxXfer
  · rw [Nat.div_eq_of_lt hl, Nat.mod_eq_of_lt hl] at h
    by_cases h0 : total = 0
    · simp [h0] at h
    · simp only [List.replicate_zero, h0, if_false, List.nil_append, List.cons.injEq] at h
      obtain ⟨rfl, rfl⟩ := h
      exact ⟨h0, by omega, by simp⟩
  · have hge : cfg.maxXfer ≤ total := by omega
    rw [Nat.div_eq_sub_div hp hge, List.replicate_succ, List.cons_append] at h
    obtain ⟨rfl, rfl⟩ := List.cons.inj h
    exact ⟨by omega, by omega, by rw [← Nat.mod_eq_sub_mod hge]⟩

/-- The chunks make up all the bytes. -/
theorem chunkSizes_sum (cfg : Config) (total : Nat) : (chunkSizes cfg total).sum = total := by
  have h := Nat.div_add_mod total cfg.maxXfer
  rw [Nat.mul_comm] at h
  unfold chunkSizes
  rw [List.sum_append, List.sum_replicate]
  split <;> simp <;> omega

/-- A control write stands where its branch's list has it next, and the index after it has made it
(R141, R150 to R155). -/
theorem control_write_is_next (cfg : Config) (k : Fin 23) (i : Instr) (reg : BitVec 16) (pl : Payload)
    (h : (i = .wclr ∧ reg = cfg.regClearInt ∧ pl = cfg.plClearInt) ∨
      (i = .wcpu ∧ reg = cfg.regStartCpu ∧ pl = cfg.plStartCpu) ∨
      (i = .wptm ∧ reg = cfg.regPointMode ∧ pl = cfg.plPointMode) ∨
      (i = .wsta ∧ reg = cfg.regStartSampling ∧ pl = cfg.plStartSampling))
    (hm : microAt k = i) :
    (runWrites cfg k).drop (writesMadeAt k) =
      writeRecord reg pl true :: (runWrites cfg k).drop (writesMadeAt k + 1) ∧
    k.val < 22 ∧ (runWrites cfg (k + 1)).take (writesMadeAt (k + 1)) =
      (runWrites cfg k).take (writesMadeAt k) ++ [writeRecord reg pl true] := by
  rcases h with ⟨rfl, rfl, rfl⟩ | ⟨rfl, rfl, rfl⟩ | ⟨rfl, rfl, rfl⟩ | ⟨rfl, rfl, rfl⟩
  · rw [microAt_wclr] at hm
    simp only [List.mem_cons, List.not_mem_nil, or_false] at hm
    rcases hm with rfl | rfl | rfl | rfl | rfl <;> exact ⟨rfl, by decide, rfl⟩
  · rw [microAt_wcpu] at hm; subst hm; exact ⟨rfl, by decide, rfl⟩
  · rw [microAt_wptm] at hm; subst hm; exact ⟨rfl, by decide, rfl⟩
  · rw [microAt_wsta] at hm; subst hm; exact ⟨rfl, by decide, rfl⟩

end Sys2Proof.Machine
end

