-- ==== Sys2Proof/Laws/PerInstr.lean ====
section
/-! SUPPORT. Statements about every instruction as syntax, made per constructor. -/

namespace Sys2Proof.Laws

/-- How many bytes a word of a kind has: one for the 4-bit codes of R100 and R106, four for the 32-bit words
of R92, R93 and R120. -/
def wordLength (kind : WordKind) : Nat :=
  match kind with
  | .event | .query | .uop => 1
  | .decoder | .branch | .read _ | .write => 4

/-- The word of an instruction has the length of its kind, under every configuration. -/
def EncodedWidth.Statement (i : Instr) : Prop :=
  ∀ cfg : Config, (encode cfg i).2.length = wordLength (encode cfg i).1

theorem EncodedWidth.reset : EncodedWidth.Statement .reset := fun _ => rfl
theorem EncodedWidth.take : EncodedWidth.Statement .take := fun _ => rfl
theorem EncodedWidth.poll : EncodedWidth.Statement .poll := fun _ => rfl
theorem EncodedWidth.irq : EncodedWidth.Statement .irq := fun _ => rfl
theorem EncodedWidth.query : EncodedWidth.Statement .query := fun _ => rfl
theorem EncodedWidth.decode (sw : BitVec 32) : EncodedWidth.Statement (.decode sw) := fun _ => rfl
theorem EncodedWidth.branch1 (sw : BitVec 32) : EncodedWidth.Statement (.branch1 sw) := fun _ => rfl
theorem EncodedWidth.branch2 (sw : BitVec 32) : EncodedWidth.Statement (.branch2 sw) := fun _ => rfl
theorem EncodedWidth.branch3 (sw : BitVec 32) : EncodedWidth.Statement (.branch3 sw) := fun _ => rfl
theorem EncodedWidth.branch4Pt (sw : BitVec 32) : EncodedWidth.Statement (.branch4Pt sw) := fun _ => rfl
theorem EncodedWidth.branch4Ges (sw : BitVec 32) : EncodedWidth.Statement (.branch4Ges sw) := fun _ => rfl
theorem EncodedWidth.branch5 (sw : BitVec 32) : EncodedWidth.Statement (.branch5 sw) := fun _ => rfl
theorem EncodedWidth.branch6 (sw : BitVec 32) : EncodedWidth.Statement (.branch6 sw) := fun _ => rfl
theorem EncodedWidth.rdst : EncodedWidth.Statement .rdst := fun _ => rfl
theorem EncodedWidth.disp : EncodedWidth.Statement .disp := fun _ => rfl
theorem EncodedWidth.wclr : EncodedWidth.Statement .wclr := fun _ => rfl
theorem EncodedWidth.wcpu : EncodedWidth.Statement .wcpu := fun _ => rfl
theorem EncodedWidth.wptm : EncodedWidth.Statement .wptm := fun _ => rfl
theorem EncodedWidth.wsta : EncodedWidth.Statement .wsta := fun _ => rfl
theorem EncodedWidth.rdpt : EncodedWidth.Statement .rdpt := fun _ => rfl
theorem EncodedWidth.publ : EncodedWidth.Statement .publ := fun _ => rfl
theorem EncodedWidth.lclr : EncodedWidth.Statement .lclr := fun _ => rfl
theorem EncodedWidth.done : EncodedWidth.Statement .done := fun _ => rfl
theorem EncodedWidth.cmdRdStatus : EncodedWidth.Statement .cmdRdStatus := fun _ => rfl
theorem EncodedWidth.cmdRdPoints (n : BitVec 16) : EncodedWidth.Statement (.cmdRdPoints n) := fun _ => rfl
theorem EncodedWidth.cmdClearInt : EncodedWidth.Statement .cmdClearInt := fun _ => rfl
theorem EncodedWidth.cmdStartCpu : EncodedWidth.Statement .cmdStartCpu := fun _ => rfl
theorem EncodedWidth.cmdPointMode : EncodedWidth.Statement .cmdPointMode := fun _ => rfl
theorem EncodedWidth.cmdStartSampling : EncodedWidth.Statement .cmdStartSampling := fun _ => rfl

end Sys2Proof.Laws
end

