-- ==== Sys2Proof/Laws/Step.lean ====
section
/-! SUPPORT. What one step does, said once: which instruction it runs, and what each instruction's next
state is. -/

namespace Sys2Proof.Machine

open Sys2Proof

/-- The micro-op of the polling agent's turn. -/
def turnInstr (s : State) : Option Instr :=
  match s.upc with
  | .idle => none
  | .run k => some (microAt k)

/-- The instruction the next step runs. -/
def stepInstr (s : State) : Option Instr :=
  match s.inbox with
  | .reset :: _ => some .reset
  | .irq :: _ => some .irq
  | .poll :: _ => some .poll
  | .take :: _ => some .take
  | .query :: _ => some .query
  | .probe sw :: _ => some (.decode sw)
  | .turn :: _ => turnInstr s
  | [] => turnInstr s

theorem decode_encode_event (cfg : Config) :
    decode cfg .event (codeByte 0b1000) = .ok .reset ∧
    decode cfg .event (codeByte 0b0100) = .ok .take ∧
    decode cfg .event (codeByte 0b0010) = .ok .poll ∧
    decode cfg .event (codeByte 0b0001) = .ok .irq ∧
    decode cfg .query (codeByte 0b0100) = .ok .query :=
  ⟨rfl, rfl, rfl, rfl, rfl⟩

/-- The code of every micro-op in the micro-program decodes to it (R100, R142). -/
theorem decode_encode_microAt (cfg : Config) (k : Fin 23) :
    decode cfg (encode cfg (microAt k)).1 (encode cfg (microAt k)).2 = .ok (microAt k) := by
  rcases microAt_cases k with h | h | h | h | h | h | h | h | h | h <;> rw [h] <;> rfl

/-- A step runs `stepInstr`, or idles. -/
theorem step_eq (s : State) : step s =
    match stepInstr s with
    | none => .next (consume s)
    | some i => exec i (consume s) := by
  have turn : (match microWord s with
      | none => .next (consume s)
      | some w => runDecoded (fun i => exec i (consume s)) (decode s.cfg w.1 w.2)) =
      match turnInstr s with
      | none => Host.Outcome.next (consume s)
      | some i => exec i (consume s) := by
    unfold microWord turnInstr
    rcases s.upc with _ | k
    · rfl
    · simp [decode_encode_microAt, runDecoded]
  unfold step fetch stepInstr
  rcases s.inbox with _ | ⟨r, rest⟩
  · exact turn
  · cases r
    case turn => exact turn
    case probe sw =>
      simp [requestWord, encode, decode, runDecoded, Except.map]
    all_goals rfl

/-! What each instruction's next state is, when it has one. -/

theorem execRdst_next {s t : State} (h : execRdst s = .next t) :
    s.upc = .run 0 ∧
    ((∃ bytes, (takeAnswer 4 s).1 = .ok bytes ∧ bytes.length = 4 ∧
        t = { (takeAnswer 4 s).2 with
          sw := packStatus bytes
          upc := .run 1
          trace := .rd s.cfg.devAddr s.cfg.regStatus 4 (takeAnswer 4 s).1 :: s.trace }) ∨
     t = raiseFailure .failStatus 0 { (takeAnswer 4 s).2 with
          trace := .rd s.cfg.devAddr s.cfg.regStatus 4 (takeAnswer 4 s).1 :: s.trace }) := by
  obtain ⟨hk, h⟩ := atIndexOf_next h
  obtain ⟨k, hk, hm⟩ := holdsAt_iff.1 hk
  rw [microAt_rdst] at hm
  obtain ⟨hf, rfl⟩ := ifAnswerFits_next h
  refine ⟨hm ▸ hk, ?_⟩
  by_cases hc : ∀ bytes, (takeAnswer 4 s).1 = .ok bytes → bytes.length < 4
  · exact .inr (readStatus_fail hc)
  · push Not at hc
    obtain ⟨bytes, hb, hl⟩ := hc
    exact .inl ⟨bytes, hb, Nat.le_antisymm ((answerFits_iff 4 s).1 hf bytes hb) hl,
      readStatus_ok hb hl⟩

theorem execDisp_next {s t : State} (h : execDisp s = .next t) :
    s.upc = .run 1 ∧ t = enterBranch (branchOf s.cfg (decodeStatus s.sw)) s.sw s := by
  obtain ⟨hk, h⟩ := atIndexOf_next h
  obtain ⟨k, hk, hm⟩ := holdsAt_iff.1 hk
  rw [microAt_disp] at hm
  cases h
  exact ⟨hm ▸ hk, rfl⟩

/-- A control write moves on or raises FAIL_WRITE (R159). -/
theorem controlWrite_next {op : Instr} {reg : BitVec 16} {pl : Payload} {s t : State}
    (h : atIndexOf op s (.next (controlWrite reg pl s)) = .next t) :
    ∃ k, s.upc = .run k ∧ microAt k = op ∧
    ((t = { (takeAnswer 0 s).2 with
        upc := nextUpc s.upc
        trace := .settle s.cfg.tSettle :: .wr s.cfg.devAddr reg pl.p0 pl.p1 true :: s.trace }) ∨
     t = raiseFailure .failWrite k { (takeAnswer 0 s).2 with
        trace := .settle s.cfg.tSettle :: .wr s.cfg.devAddr reg pl.p0 pl.p1 false :: s.trace }) := by
  obtain ⟨hk, h⟩ := atIndexOf_next h
  obtain ⟨k, hk, hm⟩ := holdsAt_iff.1 hk
  cases h
  refine ⟨k, hk, hm, ?_⟩
  by_cases hc : (takeAnswer 0 s).1 = .fail
  · right
    rw [controlWrite_fail hc, hk]; rfl
  · exact .inl (controlWrite_ok hc)

theorem execRdpt_next {s t : State} (h : execRdpt s = .next t) :
    s.upc = .run 14 ∧
    ((s.rem = 0 ∧ t = { s with upc := .run 15 }) ∨
     (s.rem ≠ 0 ∧ ∃ bytes, (takeAnswer (chunkSize s.cfg s.rem) s).1 = .ok bytes ∧
        bytes.length = chunkSize s.cfg s.rem ∧
        t = { (takeAnswer (chunkSize s.cfg s.rem) s).2 with
          scratch := storeChunk s.scratch s.off.toNat bytes
          off := s.off + BitVec.ofNat 16 (chunkSize s.cfg s.rem)
          rem := s.rem - BitVec.ofNat 16 (chunkSize s.cfg s.rem)
          trace := .rd s.cfg.devAddr s.cfg.regPointData (chunkSize s.cfg s.rem)
            (takeAnswer (chunkSize s.cfg s.rem) s).1 :: s.trace }) ∨
     (s.rem ≠ 0 ∧ t = raiseFailure .failData 14 { (takeAnswer (chunkSize s.cfg s.rem) s).2 with
          trace := .rd s.cfg.devAddr s.cfg.regPointData (chunkSize s.cfg s.rem)
            (takeAnswer (chunkSize s.cfg s.rem) s).1 :: s.trace })) := by
  obtain ⟨hk, h⟩ := atIndexOf_next h
  obtain ⟨k, hk, hm⟩ := holdsAt_iff.1 hk
  rw [microAt_rdpt] at hm
  refine ⟨hm ▸ hk, ?_⟩
  split at h
  · rename_i h0
    cases h
    exact .inl ⟨h0, rfl⟩
  · rename_i h0
    obtain ⟨hf, rfl⟩ := ifAnswerFits_next h
    by_cases hc : ∀ bytes, (takeAnswer (chunkSize s.cfg s.rem) s).1 = .ok bytes →
        bytes.length < chunkSize s.cfg s.rem
    · exact .inr (.inr ⟨h0, readChunk_fail hc⟩)
    · push Not at hc
      obtain ⟨bytes, hb, hl⟩ := hc
      exact .inr (.inl ⟨h0, bytes, hb,
        Nat.le_antisymm ((answerFits_iff _ s).1 hf bytes hb) hl, readChunk_ok hb hl⟩)

theorem execPubl_next {s t : State} (h : execPubl s = .next t) :
    s.upc = .run 15 ∧ t = { s with
      tb := assembleReport s.cfg s.sw s.scratch
      upc := .run 16
      trace := .pub (snapshotOf (assembleReport s.cfg s.sw s.scratch)) :: s.trace } := by
  obtain ⟨hk, h⟩ := atIndexOf_next h
  obtain ⟨k, hk, hm⟩ := holdsAt_iff.1 hk
  rw [microAt_publ] at hm
  cases h
  exact ⟨hm ▸ hk, rfl⟩

theorem execLclr_next {s t : State} (h : execLclr s = .next t) :
    ∃ k, s.upc = .run k ∧ microAt k = .lclr ∧
      t = { s with latch := false, upc := nextUpc s.upc } := by
  obtain ⟨hk, h⟩ := atIndexOf_next h
  obtain ⟨k, hk, hm⟩ := holdsAt_iff.1 hk
  cases h
  exact ⟨k, hk, hm, rfl⟩

theorem execDone_next {s t : State} (h : execDone s = .next t) :
    ∃ k, s.upc = .run k ∧ microAt k = .done ∧ t = finishCycle s := by
  obtain ⟨hk, h⟩ := atIndexOf_next h
  obtain ⟨k, hk, hm⟩ := holdsAt_iff.1 hk
  cases h
  exact ⟨k, hk, hm, rfl⟩

theorem execPoll_next {s t : State} (h : execPoll s = .next t) :
    s.upc = .idle ∧ ((s.latch = true ∧ t = startCycle s) ∨ (s.latch = false ∧ t = returnNoEvent s)) := by
  unfold execPoll at h
  rcases hu : s.upc with _ | k <;> rw [hu] at h
  · cases h
    rcases hl : s.latch <;> simp
  · cases h

/-- A selector row enters its branch (R145). -/
theorem takeRow_next {row : Instr} {b : Branch} {sw : BitVec 32} {s t : State}
    (h : takeRow row b sw s = .next t) :
    s.upc = .run 1 ∧ selectRow s.cfg sw = row ∧ t = enterBranch b sw s := by
  obtain ⟨hk, h⟩ := atIndexOf_next h
  obtain ⟨k, hk, hm⟩ := holdsAt_iff.1 hk
  rw [microAt_disp] at hm
  split at h
  · rename_i hs
    cases h
    exact ⟨hm ▸ hk, hs, rfl⟩
  · cases h

/-- The four control-write micro-ops in one (R147, R148, R149, R156, R159). -/
theorem exec_control_next {i : Instr} {s t : State}
    (hi : i = .wclr ∨ i = .wcpu ∨ i = .wptm ∨ i = .wsta) (h : exec i s = .next t) :
    ∃ k reg pl,
      ((i = .wclr ∧ reg = s.cfg.regClearInt ∧ pl = s.cfg.plClearInt) ∨
       (i = .wcpu ∧ reg = s.cfg.regStartCpu ∧ pl = s.cfg.plStartCpu) ∨
       (i = .wptm ∧ reg = s.cfg.regPointMode ∧ pl = s.cfg.plPointMode) ∨
       (i = .wsta ∧ reg = s.cfg.regStartSampling ∧ pl = s.cfg.plStartSampling)) ∧
      s.upc = .run k ∧ microAt k = i ∧
      ((t = { (takeAnswer 0 s).2 with
          upc := nextUpc s.upc
          trace := .settle s.cfg.tSettle :: .wr s.cfg.devAddr reg pl.p0 pl.p1 true :: s.trace }) ∨
       t = raiseFailure .failWrite k { (takeAnswer 0 s).2 with
          trace := .settle s.cfg.tSettle :: .wr s.cfg.devAddr reg pl.p0 pl.p1 false :: s.trace }) := by
  rcases hi with rfl | rfl | rfl | rfl <;>
  · obtain ⟨k, hk, hm, h⟩ := controlWrite_next h
    exact ⟨k, _, _, by simp, hk, hm, h⟩

/-- The seven selector rows in one (R145). -/
theorem exec_selector_next {i : Instr} {s t : State} {sw : BitVec 32}
    (hi : i = .branch1 sw ∨ i = .branch2 sw ∨ i = .branch3 sw ∨ i = .branch4Pt sw ∨
      i = .branch4Ges sw ∨ i = .branch5 sw ∨ i = .branch6 sw) (h : exec i s = .next t) :
    s.upc = .run 1 ∧ selectRow s.cfg sw = i ∧ ∃ b, t = enterBranch b sw s := by
  rcases hi with rfl | rfl | rfl | rfl | rfl | rfl | rfl <;>
  · obtain ⟨hk, hm, h⟩ := takeRow_next h
    exact ⟨hk, hm, _, h⟩

/-- A write command (R102). -/
theorem execCmdWrite_next {op : Instr} {reg : BitVec 16} {pl : Payload} {s t : State}
    (h : atIndexOf op s (.next (busWrite reg pl s).2) = .next t) :
    ∃ k, s.upc = .run k ∧ microAt k = op ∧ t = { (takeAnswer 0 s).2 with
      trace := .settle s.cfg.tSettle ::
        .wr s.cfg.devAddr reg pl.p0 pl.p1 (writeOk (takeAnswer 0 s).1) :: s.trace } := by
  obtain ⟨hk, h⟩ := atIndexOf_next h
  obtain ⟨k, hk, hm⟩ := holdsAt_iff.1 hk
  cases h
  exact ⟨k, hk, hm, by simp [busWrite, emit]⟩

theorem execCmdRdStatus_next {s t : State} (h : execCmdRdStatus s = .next t) :
    s.upc = .run 0 ∧ t = { (takeAnswer 4 s).2 with
      trace := .rd s.cfg.devAddr s.cfg.regStatus 4 (takeAnswer 4 s).1 :: s.trace } := by
  obtain ⟨hk, h⟩ := atIndexOf_next h
  obtain ⟨k, hk, hm⟩ := holdsAt_iff.1 hk
  rw [microAt_rdst] at hm
  obtain ⟨-, rfl⟩ := ifAnswerFits_next h
  exact ⟨hm ▸ hk, by simp [busRead, emit]⟩

theorem execCmdRdPoints_next {n : BitVec 16} {s t : State} (h : execCmdRdPoints n s = .next t) :
    s.upc = .run 14 ∧ n.toNat = chunkSize s.cfg s.rem ∧ n ≠ 0 ∧ t = { (takeAnswer n.toNat s).2 with
      trace := .rd s.cfg.devAddr s.cfg.regPointData n.toNat (takeAnswer n.toNat s).1 :: s.trace } := by
  obtain ⟨hk, h⟩ := atIndexOf_next h
  obtain ⟨k, hk, hm⟩ := holdsAt_iff.1 hk
  rw [microAt_rdpt] at hm
  split at h
  · obtain ⟨-, rfl⟩ := ifAnswerFits_next h
    exact ⟨hm ▸ hk, ‹_ ∧ _›.1, ‹_ ∧ _›.2, by simp [busRead, emit]⟩
  · cases h

/-! What a step runs. -/

/-- The instruction of a step is an event, a payload shown to the decoder, or the micro-op at `upc`. -/
theorem stepInstr_cases {s : State} {i : Instr} (h : stepInstr s = some i) :
    i = .reset ∨ i = .irq ∨ i = .poll ∨ i = .take ∨ i = .query ∨ (∃ sw, i = .decode sw) ∨
    ((s.inbox = [] ∨ ∃ rest, s.inbox = .turn :: rest) ∧ ∃ k, s.upc = .run k ∧ i = microAt k) := by
  have turn : turnInstr s = some i → ∃ k, s.upc = .run k ∧ i = microAt k := by
    unfold turnInstr
    rcases s.upc with _ | k <;> simp
    exact fun h => h.symm
  unfold stepInstr at h
  rcases hb : s.inbox with _ | ⟨r, rest⟩ <;> rw [hb] at h
  · simp [turn h]
  · cases r <;> simp_all
    all_goals simp [← h]

/-- What holds of the state with its request used up and of every next state of the instructions a step can
run holds of the next state of a step. -/
theorem step_next_cases {s t : State} {P : State → Prop} (h : step s = .next t)
    (idle : P (consume s))
    (event : ∀ i, i = .reset ∨ i = .irq ∨ i = .poll ∨ i = .take ∨ i = .query →
      exec i (consume s) = .next t → P t)
    (probe : ∀ sw, exec (.decode sw) (consume s) = .next t → P t)
    (micro : ∀ k, s.upc = .run k → exec (microAt k) (consume s) = .next t → P t) : P t := by
  rw [step_eq] at h
  rcases hs : stepInstr s with _ | i <;> rw [hs] at h
  · cases h; exact idle
  · rcases stepInstr_cases hs with h' | h' | h' | h' | h' | ⟨sw, rfl⟩ | ⟨-, k, hk, rfl⟩
    · exact event i (by simp [h']) h
    · exact event i (by simp [h']) h
    · exact event i (by simp [h']) h
    · exact event i (by simp [h']) h
    · exact event i (by simp [h']) h
    · exact probe sw h
    · exact micro k hk h

/-- With nothing requested, a step of a cycle in flight is its micro-op. -/
theorem step_of_run {s : State} {k : Fin 23} (hu : s.upc = .run k) (hb : s.inbox = []) :
    step s = exec (microAt k) s := by
  have hi : stepInstr s = some (microAt k) := by simp [stepInstr, hb, turnInstr, hu]
  have hc : consume s = s := by unfold consume; rw [hb]; cases s; simp_all
  rw [step_eq, hi]
  simp only [hc]

/-- Runs, one step at a time. -/
theorem run_succ_next (M : Host.Core) (n : Nat) {s t : M.State} (h : M.step s = .next t) :
    M.run (n + 1) s = M.run n t := by
  simp only [Host.Core.run, h]

theorem run_succ_refused (M : Host.Core) (n : Nat) {s : M.State} {r : M.Refusal}
    (h : M.step s = .refused r) : M.run (n + 1) s = .refused r := by
  simp only [Host.Core.run, h]

end Sys2Proof.Machine
end

