-- ==== Sys2Proof/Tests/Slice0.lean ====
section
/-! SUPPORT. The model's own tests: ill-formed terms refused, words written out from the spec, one step at a time
against spec/95_test_vectors.md, and a witness for the hypotheses of each statement. Expected values are the
spec's, by the name of the vector (V-…) or by the rule. -/

namespace Sys2Proof.Tests

open Sys2Proof Sys2Proof.Machine

/-! ### Well-formedness: each check refuses an ill-formed term -/

theorem test_wf_branch1_payload : (Instr.branch1 0x00002000).wf Config.ref = false := by decide
theorem test_wf_branch2_payload : (Instr.branch2 0x00006000).wf Config.ref = false := by decide
theorem test_wf_branch3_payload : (Instr.branch3 0x00010800).wf Config.ref = false := by decide
theorem test_wf_branch4Pt_payload : (Instr.branch4Pt 0x00000801).wf Config.ref = false := by decide
theorem test_wf_branch4Ges_payload : (Instr.branch4Ges 0x00000003).wf Config.ref = false := by decide
theorem test_wf_branch5_payload : (Instr.branch5 0x00020008).wf Config.ref = false := by decide
theorem test_wf_branch6_payload : (Instr.branch6 0x00020808).wf Config.ref = false := by decide
theorem test_wf_points_count : (Instr.cmdRdPoints 0).wf Config.ref = false ∧
    (Instr.cmdRdPoints 65).wf Config.ref = false ∧ (Instr.cmdRdPoints 64).wf Config.ref = true := by
  decide

/-- A configuration with two equal command addresses is refused (R8, R243). -/
theorem test_params_equal_commands :
    ({ Config.ref.toParams with regStartCpu := 0x0200 } : Params).wf = false := by decide
/-- A record length of 0 is refused (R8). -/
theorem test_params_record_length : ({ Config.ref.toParams with
    layout := { hdrLen := 0, recLen := 0, codec := .free 0 } } : Params).wf = false := by decide

/-! ### Words written out from the spec, one for each constructor -/

/-- R106: the one-hot vector `rst : take_req : poll_req : irq_fall`. -/
theorem test_decode_events :
    decode Config.ref .event [0b1000] = .ok .reset ∧ decode Config.ref .event [0b0100] = .ok .take ∧
    decode Config.ref .event [0b0010] = .ok .poll ∧ decode Config.ref .event [0b0001] = .ok .irq ∧
    decode Config.ref .query [0b0100] = .ok .query := ⟨rfl, rfl, rfl, rfl, rfl⟩

/-- R100: the ten micro-op codes. -/
theorem test_decode_uops :
    decode Config.ref .uop [0x0] = .ok .rdst ∧ decode Config.ref .uop [0x1] = .ok .disp ∧
    decode Config.ref .uop [0x2] = .ok .wclr ∧ decode Config.ref .uop [0x3] = .ok .wcpu ∧
    decode Config.ref .uop [0x4] = .ok .wptm ∧ decode Config.ref .uop [0x5] = .ok .wsta ∧
    decode Config.ref .uop [0x6] = .ok .rdpt ∧ decode Config.ref .uop [0x7] = .ok .publ ∧
    decode Config.ref .uop [0x8] = .ok .lclr ∧ decode Config.ref .uop [0x9] = .ok .done :=
  ⟨rfl, rfl, rfl, rfl, rfl, rfl, rfl, rfl, rfl, rfl⟩

/-- V-DEC-13: the four bytes in bus order, `b0` in bits 7 to 0 (R11). -/
theorem test_decode_payload :
    decode Config.ref .decoder [0xFE, 0x00, 0x34, 0x12] = .ok (.decode 0x123400FE) := rfl

/-- V-BR-3, V-BR-6, V-BR-8, V-BR-12, V-BR-11, V-BR-16, V-BR-20. -/
theorem test_decode_branches :
    decode Config.ref .branch [0x01, 0x48, 0x04, 0x00] = .ok (.branch1 0x00044801) ∧
    decode Config.ref .branch [0x03, 0x28, 0x1C, 0x00] = .ok (.branch2 0x001C2803) ∧
    decode Config.ref .branch [0x01, 0x08, 0x00, 0x00] = .ok (.branch3 0x00000801) ∧
    decode Config.ref .branch [0x09, 0x08, 0x06, 0x00] = .ok (.branch4Pt 0x00060809) ∧
    decode Config.ref .branch [0x02, 0x08, 0x0A, 0x00] = .ok (.branch4Ges 0x000A0802) ∧
    decode Config.ref .branch [0x08, 0x08, 0x02, 0x00] = .ok (.branch5 0x00020808) ∧
    decode Config.ref .branch [0x08, 0x00, 0x02, 0x00] = .ok (.branch6 0x00020008) :=
  ⟨rfl, rfl, rfl, rfl, rfl, rfl, rfl⟩

/-- R93 under `REF`: register in the high half, count in the low half; bytes least significant first
(log 17). -/
theorem test_decode_reads :
    decode Config.ref (.read true) [0x04, 0x00, 0x00, 0x20] = .ok .cmdRdStatus ∧
    decode Config.ref (.read false) [0x0A, 0x00, 0x03, 0x00] = .ok (.cmdRdPoints 10) := ⟨rfl, rfl⟩

/-- R92 under `REF`: register, then `p0`, then `p1`; bytes least significant first (log 17). -/
theorem test_decode_writes :
    decode Config.ref .write [0x00, 0x01, 0x00, 0x02] = .ok .cmdClearInt ∧
    decode Config.ref .write [0x00, 0x01, 0x00, 0x04] = .ok .cmdStartCpu ∧
    decode Config.ref .write [0x00, 0x00, 0x00, 0x50] = .ok .cmdPointMode ∧
    decode Config.ref .write [0x00, 0x00, 0x00, 0x46] = .ok .cmdStartSampling :=
  ⟨rfl, rfl, rfl, rfl⟩

/-- Each rejection of the decoder, by name. -/
theorem test_decode_rejections :
    decode Config.ref .event [] = .error .wrongLength ∧
    decode Config.ref .branch [0x00, 0x40, 0x00] = .error .wrongLength ∧
    decode Config.ref .uop [0x12] = .error .strayBits ∧
    decode Config.ref .event [0x0] = .error .noRequest ∧
    decode Config.ref .event [0x3] = .error .severalRequests ∧
    decode Config.ref .uop [0xA] = .error .unusedMicroOp ∧
    decode Config.ref .write [0x00, 0x00, 0x03, 0x00] = .error .unknownCommand ∧
    decode Config.ref .write [0x01, 0x00, 0x00, 0x02] = .error .wrongPayload ∧
    decode Config.ref (.read true) [0x05, 0x00, 0x00, 0x20] = .error .wrongCount :=
  ⟨rfl, rfl, rfl, rfl, rfl, rfl, rfl, rfl, rfl⟩

/-- The words of spec/opcode_table.json, as the table numbers them (log 17). -/
theorem test_table_words :
    decodeTableWord 8 0x8 = some .reset ∧ decodeTableWord 8 0x3 = some .wcpu ∧
    decodeTableWord 16 0x7 = some .publ ∧ decodeTableWord 32 0x00000808 = some (.branch3 0x00000808) ∧
    decodeTableWord 32 0x04000100 = some .cmdStartCpu := ⟨rfl, rfl, rfl, rfl, rfl⟩

/-! ### Small states -/

/-- A state of a cycle in flight at index `k` with status word `sw`, the latch set, after reset. -/
def inFlight (k : Fin 23) (sw : BitVec 32) : State :=
  { State.reset with
    latch := true
    upc := .run k
    sw := sw
    res := { code := .running, branch := branchAt k, loc := 0 } }

/-- A branch-4 state with 10 bytes still to read. -/
def reading : State := { inFlight 14 0x000A0801 with rem := 10 }

/-- A state that has published two points (V-BUF-4). -/
def published : State :=
  { State.reset with
    tb := { points := [⟨0, 0x0010, 0x0020, 0x11⟩, ⟨1, 0x0130, 0x0240, 0x22⟩, TouchPoint.zero,
              TouchPoint.zero, TouchPoint.zero]
            touchNum := 2
            metadata := Metadata.zero } }

/-- The state with one bus answer queued. -/
def answered (a : BusAnswer) (s : State) : State := { s with answers := [a] }

/-- One field of the next state, when there is one. -/
def nextField {α : Type} (f : State → α) (o : StepOutcome) : Option α :=
  match o with
  | .next t => some (f t)
  | .fault _ => none
  | .refused _ => none

/-! ### One step of each instruction -/

/-- V-RST-2: RESET clears the latch and the count. -/
theorem test_reset : nextField (fun t => (t.latch, t.tb, t.upc, t.res))
    (exec .reset { published with latch := true, upc := .run 14 }) =
    some (false, emptyReport Config.ref, .idle, resultNone) := rfl

/-- V-BUF-4, first TAKE: two points handed out, the slots kept. -/
theorem test_take : nextField (fun t => (t.trace, t.tb.touchNum, t.tb.points.take 1))
    (exec .take published) =
    some ([.take ⟨2, [⟨0, 0x0010, 0x0020, 0x11⟩, ⟨1, 0x0130, 0x0240, 0x22⟩], Metadata.zero⟩], 0,
      [⟨0, 0x0010, 0x0020, 0x11⟩]) := rfl

/-- V-BUF-5, first QUERY. -/
theorem test_query : nextField (·.trace) (exec .query published) =
    some [.query ⟨true, 2, 0x0010, 0x0020, 0x11⟩] := rfl
/-- V-RST-1: QUERY of the empty buffer. -/
theorem test_query_empty : nextField (·.trace) (exec .query State.reset) =
    some [.query ⟨false, 0, 0, 0, 0⟩] := rfl

/-- V-SEQ-0: no edge, no cycle. -/
theorem test_poll_no_event : nextField (fun t => (t.upc, t.res, t.trace)) (exec .poll State.reset) =
    some (.idle, resultNone, [.pollDone resultNone, .poll]) := rfl
/-- R140: with the latch set a cycle starts at index 0, and the latch stays set. -/
theorem test_poll_starts : nextField (fun t => (t.upc, t.res.code, t.latch))
    (exec .poll { State.reset with latch := true }) = some (.run 0, .running, true) := rfl

/-- V-BUF-1. -/
theorem test_irq : nextField (·.latch) (exec .irq State.reset) = some true := rfl

/-- V-DEC-12: the length is little-endian. -/
theorem test_decode : nextField (·.trace) (exec (.decode 0x0100080B) State.reset) =
    some [.decoded ⟨true, true, false, true, false, false, true, false, false, false, false, 256⟩] :=
  rfl
/-- V-DEC-4: the reserved bits decode to nothing. -/
theorem test_decode_reserved : decodeStatus 0x000007F4 = decodeStatus 0 := by decide

/-- V-BR-4: boot ROM first. -/
theorem test_branch1 : nextField (fun t => (t.upc, t.res.branch))
    (exec (.branch1 0x00006800) (inFlight 1 0)) = some (.run 2, some .b1) := rfl
/-- V-BR-6. -/
theorem test_branch2 : nextField (fun t => (t.upc, t.res.branch))
    (exec (.branch2 0x001C2803) (inFlight 1 0)) = some (.run 6, some .b2) := rfl
/-- V-BR-9: branch 3 before 5. -/
theorem test_branch3 : nextField (fun t => (t.upc, t.res.branch))
    (exec (.branch3 0x00000808) (inFlight 1 0)) = some (.run 11, some .b3) := rfl
/-- V-BR-12: branch 4 before 5, and the counters loaded (R145). -/
theorem test_branch4Pt : nextField (fun t => (t.upc, t.res.branch, t.rem, t.off))
    (exec (.branch4Pt 0x00060809) { inFlight 1 0 with off := 9 }) =
    some (.run 14, some .b4, 6, 0) := rfl
/-- V-BR-11. -/
theorem test_branch4Ges : nextField (fun t => (t.upc, t.res.branch, t.rem))
    (exec (.branch4Ges 0x000A0802) (inFlight 1 0)) = some (.run 14, some .b4, 10) := rfl
/-- V-BR-16. -/
theorem test_branch5 : nextField (fun t => (t.upc, t.res.branch, t.rem))
    (exec (.branch5 0x00020808) (inFlight 1 0)) = some (.run 19, some .b5, 0) := rfl
/-- V-BR-20: `aux` without running. -/
theorem test_branch6 : nextField (fun t => (t.upc, t.res.branch))
    (exec (.branch6 0x00020008) (inFlight 1 0)) = some (.run 22, some .b6) := rfl

/-- R144's example. -/
theorem test_rdst : nextField (fun t => (t.sw, t.upc, t.trace))
    (exec .rdst (answered (.ok [0x01, 0x00, 0x04, 0x00]) (inFlight 0 0))) =
    some (0x00040001, .run 1, [.rd 0x53 0x2000 4 (.ok [0x01, 0x00, 0x04, 0x00])]) := rfl
/-- V-EXC-2: a short status read. -/
theorem test_rdst_short : nextField (fun t => (t.sw, t.upc, t.res, t.latch))
    (exec .rdst (answered (.ok [0x01, 0x00, 0x04]) (inFlight 0 0x1234))) =
    some (0x1234, .idle, ⟨.failStatus, none, 0⟩, true) := rfl

/-- R145's example. -/
theorem test_disp : nextField (fun t => (t.res.branch, t.rem, t.off, t.upc))
    (exec .disp { inFlight 1 0x00040001 with off := 3 }) = some (some .b4, 4, 0, .run 14) := rfl
/-- V-BR-8: running with length 0, although a point exists. -/
theorem test_disp_empty : nextField (·.upc) (exec .disp (inFlight 1 0x00000801)) =
    some (.run 11) := rfl

/-- R147's example, and the settle delay after the write (R74). -/
theorem test_wclr : nextField (fun t => (t.upc, t.trace, t.latch))
    (exec .wclr (answered (.ok []) (inFlight 11 0x00000800))) =
    some (.run 12, [.settle 200, .wr 0x53 0x0200 0x01 0x00 true], true) := rfl
/-- V-SEQ-10, branch 5: the write fails at index 19. -/
theorem test_wclr_fail : nextField (fun t => (t.upc, t.res, t.latch))
    (exec .wclr (answered .fail (inFlight 19 0x00020808))) =
    some (.idle, ⟨.failWrite, some .b5, 19⟩, true) := rfl
/-- V-SEQ-1, second write. -/
theorem test_wcpu : nextField (fun t => (t.upc, t.trace))
    (exec .wcpu (answered (.ok []) (inFlight 3 0x00004000))) =
    some (.run 4, [.settle 200, .wr 0x53 0x0400 0x01 0x00 true]) := rfl
/-- V-SEQ-2, first write. -/
theorem test_wptm : nextField (fun t => (t.upc, t.trace))
    (exec .wptm (answered (.ok []) (inFlight 6 0x00002000))) =
    some (.run 7, [.settle 200, .wr 0x53 0x5000 0x00 0x00 true]) := rfl
/-- V-SEQ-2, second write. -/
theorem test_wsta : nextField (fun t => (t.upc, t.trace))
    (exec .wsta (answered (.ok []) (inFlight 7 0x00002000))) =
    some (.run 8, [.settle 200, .wr 0x53 0x4600 0x00 0x00 true]) := rfl

/-- P3, second chunk: of 14 bytes from payload offset 16, the 4 below `SCRATCH_LEN = 20` are kept. -/
theorem test_rdpt : nextField (fun t => (t.rem, t.off, t.upc, t.scratch.drop 16))
    (exec .rdpt (answered
      (.ok [0x14, 0x24, 0x53, 0x34, 0x15, 0x25, 0x62, 0x35, 0x16, 0x26, 0x71, 0x36, 0xEE, 0xEF])
      { inFlight 14 0x001E0801 with rem := 14, off := 16 })) =
    some (0, 30, .run 14, [0x14, 0x24, 0x53, 0x34]) := rfl
/-- V-ASM-7: a short chunk raises FAIL_DATA and stores nothing. -/
theorem test_rdpt_short : nextField (fun t => (t.rem, t.off, t.upc, t.res, t.scratch.take 5))
    (exec .rdpt (answered (.ok [0x05, 0x06, 0x07])
      { inFlight 14 0x00080801 with rem := 4, off := 4 })) =
    some (4, 4, .idle, ⟨.failData, some .b4, 14⟩, [0, 0, 0, 0, 0]) := rfl

/-- P2: the published report. -/
theorem test_publ : nextField (fun t => (t.tb.touchNum, t.tb.points.take 2, t.upc))
    (exec .publ { inFlight 15 0x00040001 with
      scratch := [0x34, 0x78, 0x12, 0x40] ++ List.replicate 16 0 }) =
    some (1, [⟨0, 0x0134, 0x0278, 0x40⟩, TouchPoint.zero], .run 16) := rfl
/-- V-ASM-C8: gesture only, no points. -/
theorem test_publ_gesture : nextField (fun t => t.tb.touchNum)
    (exec .publ (inFlight 15 0x000A0802)) = some 0 := rfl

/-- R157's example. -/
theorem test_lclr : nextField (fun t => (t.latch, t.upc)) (exec .lclr (inFlight 12 0x00000800)) =
    some (false, .run 13) := rfl

/-- V-SEQ-6: the end of branch 6, the latch not cleared. -/
theorem test_done : nextField (fun t => (t.upc, t.res, t.latch)) (exec .done (inFlight 22 0)) =
    some (.idle, ⟨.ok, some .b6, 0⟩, true) := rfl

/-- R102: the six bus commands, with their registers, counts and payloads under `REF`. -/
theorem test_commands :
    nextField (·.trace) (exec .cmdRdStatus (answered .fail (inFlight 0 0))) =
      some [.rd 0x53 0x2000 4 .fail] ∧
    nextField (·.trace) (exec (.cmdRdPoints 10) (answered .fail reading)) =
      some [.rd 0x53 0x0003 10 .fail] ∧
    nextField (·.trace) (exec .cmdClearInt (answered .fail (inFlight 16 0))) =
      some [.settle 200, .wr 0x53 0x0200 0x01 0x00 false] ∧
    nextField (·.trace) (exec .cmdStartCpu (answered (.ok []) (inFlight 3 0))) =
      some [.settle 200, .wr 0x53 0x0400 0x01 0x00 true] ∧
    nextField (·.trace) (exec .cmdPointMode (answered (.ok []) (inFlight 6 0))) =
      some [.settle 200, .wr 0x53 0x5000 0x00 0x00 true] ∧
    nextField (·.trace) (exec .cmdStartSampling (answered (.ok []) (inFlight 7 0))) =
      some [.settle 200, .wr 0x53 0x4600 0x00 0x00 true] := ⟨rfl, rfl, rfl, rfl, rfl, rfl⟩

/-- V-ASM-P4 and V-ASM-P5: the nibbles of `LAYOUT_P4`. -/
theorem test_layout : pointP4 2 [0x00, 0xFF, 0xF0, 0x80] = ⟨2, 0x0F00, 0x00FF, 0x80⟩ ∧
    pointP4 1 [0xCD, 0x34, 0xAB, 0x7F] = ⟨1, 0x0ACD, 0x0B34, 0x7F⟩ := by decide

/-! ### Witnesses: states and operands that meet the hypotheses of the statements -/

theorem witness_StepRunsTheDecodedWord :
    fetch reading = some (.uop, [0x6]) ∧ decode reading.cfg .uop [0x6] = .ok .rdpt ∧
    fetch State.reset = none := ⟨rfl, rfl, rfl⟩

theorem witness_FetchTakesRequestOrMicroOp :
    ({ State.reset with inbox := [.reset] } : State).inbox = .reset :: [] ∧
    ({ State.reset with inbox := [.take] } : State).inbox = .take :: [] ∧
    ({ State.reset with inbox := [.poll] } : State).inbox = .poll :: [] ∧
    ({ State.reset with inbox := [.irq] } : State).inbox = .irq :: [] ∧
    ({ State.reset with inbox := [.query, .irq] } : State).inbox = .query :: [.irq] ∧
    ({ State.reset with inbox := [.probe 0x04030201] } : State).inbox =
      .probe ((0x04 : Byte) ++ (0x03 : Byte) ++ (0x02 : Byte) ++ (0x01 : Byte)) :: [] ∧
    (State.reset.inbox = [] ∧ State.reset.upc = .idle) ∧
    ((inFlight 0 0).inbox = [] ∧ (inFlight 0 0).upc = .run 0) ∧
    ({ inFlight 22 0 with inbox := [.turn] } : State).inbox = .turn :: [] ∧
    (inFlight 22 0).upc = .run 22 := by decide

theorem witness_DecodeInvertsEncode :
    (Instr.branch5 0xFFFF0F08).wf Config.ref = true ∧ (Instr.branch6 0x0001B0F4).wf Config.ref = false ∧
    (Instr.branch6 0x000190F4).wf Config.ref = true ∧ (Instr.cmdRdPoints 1).wf Config.ref = true ∧
    Instr.publ.wf Config.ref = true := by decide

theorem witness_EncodeInvertsDecode :
    decode Config.ref .branch [0x08, 0x08, 0x02, 0x00] = .ok (.branch5 0x00020808) ∧
    decode Config.ref (.read false) [0x40, 0x00, 0x03, 0x00] = .ok (.cmdRdPoints 64) := ⟨rfl, rfl⟩

/-- Both refusals happen. -/
theorem witness_StepRefusesOnlyReentryAndLongAnswers :
    step { inFlight 0 0 with inbox := [.poll] } = .refused .pollInFlight ∧
    step (answered (.ok [0, 0, 0, 0, 0]) (inFlight 0 0)) = .refused .answerTooLong ∧
    step (answered (.ok (List.replicate 11 0)) reading) = .refused .answerTooLong := ⟨rfl, rfl, rfl⟩

theorem witness_ReservedStatusBitsIgnored :
    (0x00040001 : BitVec 32) &&& 0xFFFFF80B = (0x000407F5 : BitVec 32) &&& 0xFFFFF80B := by decide

/-- A payload for each of the seven rows, at the dispatch index. -/
theorem witness_BranchSelectorsEnterTheirRun :
    (inFlight 1 0).upc = .run 1 ∧ (decodeStatus 0x00006000).inBootRom = true ∧
    ((decodeStatus 0x00002000).inBootRom = false ∧ (decodeStatus 0x00002000).inCpuState = true ∧
      samplingPred Config.ref.sampling (decodeStatus 0x00002000) = false) ∧
    ((decodeStatus 0x00000801).inCpuState = false ∧ (decodeStatus 0x00000801).cpuRunning = true ∧
      (decodeStatus 0x00000801).pendingLength = 0) ∧
    ((decodeStatus 0x00010803).inCpuState = false ∧ (decodeStatus 0x00010803).pendingLength ≠ 0 ∧
      (decodeStatus 0x00010803).ptExist = true) ∧
    ((decodeStatus 0x00000002).cpuRunning = false ∧ (decodeStatus 0x00000002).ptExist = false ∧
      (decodeStatus 0x00000002).gesture = true) ∧
    ((decodeStatus 0x00010808).pendingLength ≠ 0 ∧ (decodeStatus 0x00010808).ptExist = false ∧
      (decodeStatus 0x00010808).gesture = false ∧ (decodeStatus 0x00010808).cpuRunning = true ∧
      (decodeStatus 0x00010808).aux = true) ∧
    ((decodeStatus 0x00000008).inBootRom = false ∧ (decodeStatus 0x00000008).inCpuState = false ∧
      (decodeStatus 0x00000008).cpuRunning = false ∧ (decodeStatus 0x00000008).ptExist = false ∧
      (decodeStatus 0x00000008).gesture = false) := by decide

theorem witness_DispatchRunsTheSelectedRow : (inFlight 1 0x00020808).upc = .run 1 := rfl

theorem witness_PollStartsACycleOnlyWhenLatched :
    (State.reset.upc = .idle ∧ State.reset.latch = false) ∧
    (({ State.reset with latch := true } : State).upc = .idle) ∧
    (inFlight 22 0).upc = .run 22 := ⟨⟨rfl, rfl⟩, rfl, rfl⟩

theorem witness_QueryProjectsTheFirstPoint :
    State.reset.tb.touchNum = 0 ∧ 0 < published.tb.touchNum ∧
    ∃ p ps, published.tb.points = p :: ps := ⟨rfl, by decide, _, _, rfl⟩

theorem witness_TakeIsIdempotent :
    (State.reset.tb.touchNum = 0 ∧ ∃ t, exec .take State.reset = .next t) ∧
    (∃ t u, exec .take published = .next t ∧ exec .take t = .next u) ∧
    (∃ t u v, exec .publ (inFlight 15 0x00040001) = .next t ∧ exec .take t = .next u ∧
      exec .take u = .next v) :=
  ⟨⟨rfl, _, rfl⟩, ⟨_, _, rfl, rfl⟩, ⟨_, _, _, rfl, rfl, rfl⟩⟩

theorem witness_AnswersComeOldestFirst :
    (answered .fail State.reset).answers = .fail :: [] ∧ State.reset.answers = [] := ⟨rfl, rfl⟩

/-- A full answer, a short one and a failed one, at RDST. -/
theorem witness_RdstLoadsTheStatus :
    (inFlight 0 0).upc = .run 0 ∧
    (takeAnswer 4 (answered (.ok [1, 2, 3, 4]) (inFlight 0 0))).1 = .ok [1, 2, 3, 4] ∧
    (∀ bytes, (takeAnswer 4 (answered (.ok [1, 2, 3]) (inFlight 0 0))).1 = .ok bytes →
      bytes.length < 4) ∧
    (∀ bytes, (takeAnswer 4 (answered .fail (inFlight 0 0))).1 = .ok bytes → bytes.length < 4) ∧
    Inv (inFlight 0 0) := by
  refine ⟨rfl, rfl, ?_, ?_, ?_⟩
  · rintro _ ⟨⟩; decide
  · rintro _ ⟨⟩
  · exact Inv.of_run 0 rfl (by decide) rfl rfl rfl rfl rfl (by decide) (fun _ => rfl)
      (fun h => absurd h (by decide)) (fun h => absurd h (by decide))

theorem witness_ShortReadIsAFailure :
    (inFlight 0 0).upc = .run 0 ∧ ([1, 2, 3] : List Byte).length < 4 ∧ reading.upc = .run 14 ∧
    reading.rem ≠ 0 ∧ ([1, 2, 3, 4, 5, 6, 7, 8, 9] : List Byte).length <
      min reading.rem.toNat reading.cfg.maxXfer := by decide

theorem witness_LongAnswersAreRefused :
    (answered (.ok [1, 2, 3, 4, 5]) (inFlight 0 0)).answers = .ok [1, 2, 3, 4, 5] :: [] ∧
    (inFlight 0 0).upc = .run 0 ∧ reading.upc = .run 14 ∧ reading.rem ≠ 0 ∧
    (10 : BitVec 16).toNat = min reading.rem.toNat reading.cfg.maxXfer := by decide

/-- One status word for each branch. -/
theorem witness_DispEntersTheSelectedBranch :
    (inFlight 1 0x00004000).upc = .run 1 ∧
    branchOf Config.ref (decodeStatus 0x00004000) = .b1 ∧
    branchOf Config.ref (decodeStatus 0x00002000) = .b2 ∧
    branchOf Config.ref (decodeStatus 0x00000800) = .b3 ∧
    branchOf Config.ref (decodeStatus 0x00000001) = .b4 ∧
    branchOf Config.ref (decodeStatus 0x00020808) = .b5 ∧
    branchOf Config.ref (decodeStatus 0x00000000) = .b6 := by decide

/-- Each of the four writes where it stands, answered `Ok` and `Fail`. -/
theorem witness_ControlWritesAdvanceOrAbort :
    (2 : Fin 23) ∈ [2, 8, 11, 16, 19] ∧ (19 : Fin 23) ∈ [2, 8, 11, 16, 19] ∧
    (inFlight 2 0).upc = .run 2 ∧ (inFlight 3 0).upc = .run 3 ∧ (inFlight 6 0).upc = .run 6 ∧
    (inFlight 7 0).upc = .run 7 ∧
    (takeAnswer 0 (answered (.ok []) (inFlight 2 0))).1 ≠ .fail ∧
    (takeAnswer 0 (answered .fail (inFlight 2 0))).1 = .fail := by decide

/-- `REM = 0`, a full chunk and a failed one. -/
theorem witness_RdptReadsOneChunk :
    ((inFlight 14 0).upc = .run 14 ∧ (inFlight 14 0).rem = 0) ∧ reading.rem ≠ 0 ∧
    (takeAnswer 10 (answered (.ok (List.replicate 10 7)) reading)).1 =
      .ok (List.replicate 10 7) ∧
    (List.replicate 10 (7 : Byte)).length = min reading.rem.toNat reading.cfg.maxXfer ∧
    (takeAnswer 10 (answered .fail reading)).1 = .fail := by decide

theorem reading_inv : Inv reading :=
  Inv.of_run 14 rfl (by decide) rfl rfl rfl rfl rfl (fun _ => rfl) (fun _ => rfl) (fun _ => rfl)
    (fun _ h => absurd h (by decide))

/-- The invariant reads neither the answers nor the trace. -/
theorem reading_inv_with (answers : List BusAnswer) (trace : List TraceLine) :
    Inv { reading with answers := answers, trace := trace } :=
  { reading_inv with }

theorem witness_ChunkMovesTheCountersExactly :
    (branchOf Config.ref (decodeStatus 0x000A0801) = .b4 ∧
      ∃ t, exec .disp (inFlight 1 0x000A0801) = .next t) ∧
    Inv (answered (.ok (List.replicate 10 7)) reading) ∧ reading.upc = .run 14 ∧ reading.rem ≠ 0 ∧
    ∃ t, exec .rdpt (answered (.ok (List.replicate 10 7)) reading) = .next t ∧ t.upc = .run 14 :=
  ⟨⟨by decide, _, rfl⟩, reading_inv_with _ _, rfl, by decide, _, rfl, rfl⟩

/-- A payload of three records under a cap of five, so that both clauses on slots have an index. -/
theorem witness_PublReplacesTheWholeBuffer :
    (inFlight 15 0x000C0801).upc = .run 15 ∧
    recordCount Config.ref (decodeStatus 0x000C0801) = 3 ∧ 3 < Config.ref.maxPoints := by decide

theorem witness_PublishedCountIsClipped :
    (inFlight 15 0x001C0801).upc = .run 15 ∧ devCount Config.ref (decodeStatus 0x001C0801) = 7 ∧
    Config.ref.maxPoints = 5 := by decide

/-- Two buffers that differ in a stale byte. -/
theorem witness_PublIgnoresStaleScratch :
    let other := List.replicate 4 (0 : Byte) ++ List.replicate 16 9
    (∀ j, j < min (decodeStatus 0x00040001).pendingLength.toNat Config.ref.scratchLen →
      other[j]? = (inFlight 15 0x00040001).scratch[j]?) ∧
    (inFlight 15 0x00040001).scratch.length = Config.ref.scratchLen ∧
    other.length = Config.ref.scratchLen ∧ other ≠ (inFlight 15 0x00040001).scratch ∧
    (∃ t, exec .publ (inFlight 15 0x00040001) = .next t) ∧
    ∃ u, exec .publ { inFlight 15 0x00040001 with scratch := other } = .next u :=
  ⟨by decide, rfl, rfl, by decide, ⟨_, rfl⟩, ⟨_, rfl⟩⟩

theorem witness_LclrClearsTheLatch :
    (4 : Fin 23) ∈ [4, 9, 12, 17, 20] ∧ (inFlight 4 0).upc = .run 4 ∧
    (20 : Fin 23) ∈ [4, 9, 12, 17, 20] ∧ (inFlight 20 0).upc = .run 20 := by decide

theorem witness_DoneReturnsOk :
    (5 : Fin 23) ∈ [5, 10, 13, 18, 21, 22] ∧ (inFlight 5 0).upc = .run 5 ∧
    (22 : Fin 23) ∈ [5, 10, 13, 18, 21, 22] ∧ (inFlight 22 0).upc = .run 22 := by decide

theorem witness_BusCommandsMakeOneTransaction :
    (inFlight 0 0).upc = .run 0 ∧
    (∀ bytes, (takeAnswer 4 (answered (.ok [1, 2, 3, 4]) (inFlight 0 0))).1 = .ok bytes →
      bytes.length ≤ 4) ∧
    reading.upc = .run 14 ∧ (10 : BitVec 16).toNat = min reading.rem.toNat reading.cfg.maxXfer ∧
    (∀ bytes, (takeAnswer 10 (answered .fail reading)).1 = .ok bytes → bytes.length ≤ 10) ∧
    (19 : Fin 23) ∈ [2, 8, 11, 16, 19] ∧ (inFlight 19 0).upc = .run 19 ∧
    (inFlight 3 0).upc = .run 3 ∧ (inFlight 6 0).upc = .run 6 ∧ (inFlight 7 0).upc = .run 7 := by
  refine ⟨rfl, ?_, rfl, by decide, ?_, by decide, rfl, rfl, rfl, rfl⟩
  · rintro _ ⟨⟩; decide
  · rintro _ ⟨⟩

/-- A failure of each of the three kinds. -/
theorem witness_FailureChangesOnlyResAndUpc :
    isFailure (inFlight 0 0).res.code = false ∧
    (∃ t, exec .rdst (answered .fail (inFlight 0 0)) = .next t ∧ isFailure t.res.code = true) ∧
    (∃ t, exec .rdpt (answered .fail reading) = .next t ∧ isFailure t.res.code = true) ∧
    (∃ t, exec .wcpu (answered .fail (inFlight 3 0)) = .next t ∧ isFailure t.res.code = true) :=
  ⟨rfl, ⟨_, rfl, rfl⟩, ⟨_, rfl, rfl⟩, ⟨_, rfl, rfl⟩⟩

theorem witness_FailedAssemblyKeepsThePublishedReport :
    Inv (answered .fail reading) ∧ (answered .fail reading).upc = .run 14 ∧
    (answered .fail reading).rem ≠ 0 ∧
    (∀ bytes, (takeAnswer (chunkSize (answered .fail reading).cfg (answered .fail reading).rem)
      (answered .fail reading)).1 = .ok bytes →
      bytes.length < chunkSize (answered .fail reading).cfg (answered .fail reading).rem) :=
  ⟨reading_inv_with _ _, rfl,
    by decide, by rintro _ ⟨⟩⟩

/-- A state after a failed cycle, and one after a cycle that matched no branch. -/
def afterFailure : State :=
  { State.reset with latch := true, res := { code := .failWrite, branch := some .b2, loc := 8 } }

def afterUnmatched : State :=
  { State.reset with latch := true, res := { code := .ok, branch := some .b6, loc := 0 } }

theorem witness_NextPollRetriesWithoutANewEdge :
    Inv afterFailure ∧ isFailure afterFailure.res.code = true :=
  ⟨Inv.of_idle rfl (by decide) rfl rfl (by decide) (by decide) (fun _ => rfl) (fun _ _ => rfl), rfl⟩

theorem witness_UnmatchedStatusIsEvaluatedAgain :
    Inv afterUnmatched ∧ afterUnmatched.upc = .idle ∧ afterUnmatched.res.code = .ok ∧
    afterUnmatched.res.branch = some .b6 :=
  ⟨Inv.of_idle rfl (by decide) rfl rfl (by decide) (fun _ => rfl) (fun _ => rfl) (fun _ _ => rfl), rfl,
    rfl, rfl⟩

/-- Next states in which each register did change. -/
theorem witness_RegistersHaveTheirWriters :
    nextField (·.latch) (exec .lclr (inFlight 4 0)) = some false ∧
    nextField (·.latch) (exec .irq State.reset) = some true ∧
    nextField (·.tb.touchNum) (exec .take published) = some 0 ∧
    nextField (·.sw) (exec .rdst (answered (.ok [1, 0, 0, 0]) (inFlight 0 0))) = some 1 ∧
    nextField (·.rem) (exec .disp (inFlight 1 0x000A0801)) = some 10 ∧
    nextField (fun t => t.scratch.take 1) (exec .rdpt (answered (.ok (List.replicate 10 7)) reading)) =
      some [7] ∧
    nextField (·.res.code) (exec .done (inFlight 5 0)) = some .ok ∧
    nextField (·.upc) (exec .publ (inFlight 15 0)) = some (.run 16) :=
  ⟨rfl, rfl, rfl, rfl, rfl, rfl, rfl, rfl⟩

theorem witness_OnlySpecifiedBusTransactions :
    nextField (·.trace) (exec .wclr (answered .fail (inFlight 16 0))) =
      some [.pollDone ⟨.failWrite, some .b4, 16⟩, .settle 200, .wr 0x53 0x0200 0x01 0x00 false] := rfl

theorem witness_SettleDelayFollowsEveryWrite :
    settled 200 [.poll, .settle 200, .wr 0x53 0x0200 1 0 true] = true ∧
    settled 200 [.poll, .wr 0x53 0x0200 1 0 true] = false ∧
    nextField (fun t => settled t.cfg.tSettle t.trace) (step (answered (.ok []) (inFlight 2 0))) =
      some true := ⟨rfl, rfl, rfl⟩

/-- Two states that differ in the latch and the buffer only, and a micro-op that runs in the first. -/
theorem witness_AcquisitionIgnoresLatchAndBuffer :
    SameAcquisition (inFlight 15 1) { inFlight 15 1 with latch := false, tb := published.tb } ∧
    (∃ t, exec .publ (inFlight 15 1) = .next t) ∧ (∃ t, exec .irq (inFlight 15 1) = .next t) :=
  ⟨⟨rfl, rfl, rfl, rfl, rfl, rfl, rfl, rfl, rfl⟩, ⟨_, rfl⟩, ⟨_, rfl⟩⟩

/-- Each way of `upc`: every micro-op where it stands, RDPT with bytes left, with none left and failing. -/
theorem witness_MicroStepMovesUpc :
    nextField (·.upc) (step (answered (.ok [1, 0, 4, 0]) (inFlight 0 0))) = some (.run 1) ∧
    nextField (·.upc) (step (answered .fail (inFlight 0 0))) = some .idle ∧
    nextField (·.upc) (step (inFlight 1 0x00020808)) = some (.run 19) ∧
    nextField (·.upc) (step (answered (.ok []) (inFlight 2 0))) = some (.run 3) ∧
    nextField (·.upc) (step (answered .fail (inFlight 19 0))) = some .idle ∧
    nextField (·.upc) (step (answered (.ok (List.replicate 10 7)) reading)) = some (.run 14) ∧
    nextField (·.upc) (step (answered .fail reading)) = some .idle ∧
    nextField (·.upc) (step (inFlight 14 0)) = some (.run 15) ∧
    nextField (·.upc) (step (inFlight 15 0)) = some (.run 16) ∧
    nextField (·.upc) (step { inFlight 4 0 with inbox := [.turn] }) = some (.run 5) ∧
    nextField (·.upc) (step (inFlight 5 0)) = some .idle ∧
    nextField (·.upc) (step (inFlight 22 0)) = some .idle :=
  ⟨rfl, rfl, rfl, rfl, rfl, rfl, rfl, rfl, rfl, rfl, rfl, rfl⟩

theorem witness_StepKeepsInv : Inv reading ∧
    nextField (fun t => (t.rem, t.off)) (step (answered (.ok (List.replicate 10 7)) reading)) =
      some (0, 10) := ⟨reading_inv, rfl⟩

/-- A state in the middle of branch 1, with its one write made, whose next write completes. -/
theorem witness_StepKeepsWritesInOrder :
    let s := answered (.ok []) { inFlight 3 0x00004000 with
      trace := [.settle 200, .wr 0x53 0x0200 1 0 true, .rd 0x53 0x2000 4 (.ok [0, 0x40, 0, 0]), .poll] }
    Inv s ∧ WritesInOrder s ∧
    nextField cycleWrites (step s) = some (branchWrites Config.ref .b1) := by
  refine ⟨Inv.of_run 3 rfl (by decide) rfl rfl rfl rfl rfl (fun _ => rfl) (fun _ => rfl)
    (fun h => absurd h (by decide)) (fun h => absurd h (by decide)), ⟨?_, ?_, ?_, ?_⟩, rfl⟩
  · rintro _ ⟨⟩; rfl
  · rintro ⟨⟩
  · rintro ⟨⟩
  · rintro (⟨⟨⟩⟩ | ⟨⟨⟩⟩)

/-- A state of branch 4 with its status read made and an answer to its next chunk. -/
def statusWasRead (a : BusAnswer) : State :=
  { reading with answers := [a], trace := [.rd 0x53 0x2000 4 (.ok [1, 8, 10, 0]), .poll] }

/-- The next chunk completes, or fails. -/
theorem witness_StepKeepsReadsInOrder :
    (∀ a, Inv (statusWasRead a) ∧ ReadsInOrder (statusWasRead a)) ∧
    nextField cycleReads (step (statusWasRead (.ok (List.replicate 10 7)))) =
      some [(0x2000, 4, true), (0x0003, 10, true)] ∧
    nextField cycleReads (step (statusWasRead .fail)) =
      some [(0x2000, 4, true), (0x0003, 10, false)] := by
  refine ⟨fun a => ⟨reading_inv_with _ _, ⟨?_, ?_, ?_, ?_, ?_, ?_, ?_⟩⟩, rfl, rfl⟩
  · rintro ⟨⟩
  · rintro _ ⟨⟩ _ h; exact absurd rfl h
  · rintro _ ⟨⟩ _
    have h : cycleReads (statusWasRead .fail) = statusRead Config.ref true :: chunkReads Config.ref 0 := by
      decide
    exact ⟨h, fun _ => rfl⟩
  all_goals rintro ⟨⟩

/-- A status word for each of the four clauses. -/
theorem witness_CyclesWithoutPayloadRunToOk :
    let s : State := { State.reset with latch := true, inbox := [.poll] }
    (s.upc = .idle ∧ s.latch = true ∧ s.inbox = [.poll]) ∧
    branchOf s.cfg (decodeStatus ((0x00 : Byte) ++ (0x04 : Byte) ++ (0x48 : Byte) ++ (0x01 : Byte))) =
      .b1 ∧
    branchOf s.cfg (decodeStatus ((0x00 : Byte) ++ (0x00 : Byte) ++ (0x20 : Byte) ++ (0x00 : Byte))) =
      .b2 ∧
    branchOf s.cfg (decodeStatus ((0x00 : Byte) ++ (0x00 : Byte) ++ (0x08 : Byte) ++ (0x01 : Byte))) =
      .b3 ∧
    branchOf s.cfg (decodeStatus ((0x00 : Byte) ++ (0x02 : Byte) ++ (0x08 : Byte) ++ (0x08 : Byte))) =
      .b5 ∧
    branchOf s.cfg (decodeStatus ((0x00 : Byte) ++ (0x00 : Byte) ++ (0x80 : Byte) ++ (0x00 : Byte))) =
      .b6 := by decide

theorem witness_EveryCycleEnds : Inv reading ∧ reading.upc ≠ .idle ∧ reading.inbox = [] :=
  ⟨reading_inv, by decide, rfl⟩

/-- T9's status and a payload of 4 bytes in one chunk; 65 bytes, a full chunk and one byte more; and no payload
(branch 4 with `cpu_running` 0, R182). -/
theorem witness_PayloadCyclePublishesAndRunsToOk :
    let s : State := { State.reset with latch := true, inbox := [.poll] }
    (s.upc = .idle ∧ s.latch = true ∧ s.inbox = [.poll] ∧ s.scratch.length = s.cfg.scratchLen) ∧
    (branchOf s.cfg (decodeStatus ((0 : Byte) ++ (4 : Byte) ++ (0 : Byte) ++ (1 : Byte))) = .b4 ∧
      [([0x34, 0x78, 0x12, 0x40] : List Byte)].map List.length = chunkSizes s.cfg 4) ∧
    (branchOf s.cfg (decodeStatus ((0 : Byte) ++ (65 : Byte) ++ (8 : Byte) ++ (1 : Byte))) = .b4 ∧
      [List.replicate 64 (0 : Byte), [7]].map List.length = chunkSizes s.cfg 65) ∧
    (branchOf s.cfg (decodeStatus ((0 : Byte) ++ (0 : Byte) ++ (0 : Byte) ++ (2 : Byte))) = .b4 ∧
      ([] : List (List Byte)).map List.length = chunkSizes s.cfg 0) := by decide

end Sys2Proof.Tests
end

namespace Sys2Proof.Machine

/-! ### The counters of a payload read (R29, R30, R181) -/

/-- A chunk that does not fail is one full read, and it moves both counters by its size. -/
theorem execRdpt_chunk {s t : State} (h0 : s.rem ≠ 0) (h : execRdpt s = .next t)
    (hu : t.upc = .run 14) :
    (∃ bytes : List Byte, bytes.length = chunkSize s.cfg s.rem ∧
      t.trace = .rd s.cfg.devAddr s.cfg.regPointData (chunkSize s.cfg s.rem) (.ok bytes) ::
        s.trace) ∧
    t.off = s.off + BitVec.ofNat 16 (chunkSize s.cfg s.rem) ∧
    t.rem = s.rem - BitVec.ofNat 16 (chunkSize s.cfg s.rem) := by
  obtain ⟨-, ⟨hz, -⟩ | ⟨-, bytes, ha, hl, rfl⟩ | ⟨-, rfl⟩⟩ := execRdpt_next h
  · exact absurd hz h0
  · exact ⟨⟨bytes, hl, by rw [ha]⟩, rfl, rfl⟩
  · cases hu

/-- At RDPT the two counters add up to the pending length, so their sum fits 16 bits (R30). -/
theorem Inv.counters_at_rdpt {s : State} (hI : Inv s) (hu : s.upc = .run 14) :
    s.off.toNat + s.rem.toNat = (decodeStatus s.sw).pendingLength.toNat ∧
    s.off.toNat + s.rem.toNat ≤ 65535 := by
  have hsum := hI.payload 14 hu rfl
  have hlt := (decodeStatus s.sw).pendingLength.isLt
  exact ⟨hsum, by omega⟩

/-- Settles O30: a chunk is at least 1 and at most `REM`, so neither 16-bit counter wraps. -/
theorem chunkMovesTheCountersExactly : Obligations.ChunkMovesTheCountersExactly := by
  refine ⟨fun s t hb h => ?_, fun s t hu h0 h ht => ?_⟩
  · obtain ⟨-, rfl⟩ := execDisp_next h
    simp [hb]
  · obtain ⟨hread, hoff, hrem⟩ := execRdpt_chunk h0 h ht
    have hle := chunkSize_le_rem s.cfg s.rem
    have hremNat : t.rem.toNat + chunkSize s.cfg s.rem = s.rem.toNat := by
      rw [hrem, rem_sub_chunk]; omega
    refine ⟨rfl, chunkSize_pos h0, hread, hremNat, fun hI => ?_⟩
    obtain ⟨hsum, hfits⟩ := hI.counters_at_rdpt hu
    have hoffNat : t.off.toNat = s.off.toNat + chunkSize s.cfg s.rem := by
      rw [hoff, off_add_chunk hfits]
    exact ⟨hoffNat, by omega⟩

/-! ### Where a micro-op moves `upc` (R27, R141, R248) -/

/-- At the polling agent's turn a step of a cycle in flight is its micro-op. -/
theorem step_of_turn {s : State} {k : Fin 23} (hu : s.upc = .run k)
    (hb : s.inbox = [] ∨ ∃ rest, s.inbox = .turn :: rest) :
    step s = exec (microAt k) (consume s) := by
  have hi : stepInstr s = some (microAt k) := by
    rcases hb with hb | ⟨rest, hb⟩ <;> simp [stepInstr, hb, turnInstr, hu]
  rw [step_eq, hi]

/-- DONE alone stands at the last index, so every other micro-op has a next index (R141). -/
theorem nextUpc_of_not_done {k : Fin 23} (h : microAt k ≠ .done) :
    nextUpc (.run k) = .run (k + 1) := by
  have hk : ∀ k : Fin 23, microAt k ≠ .done → k.val < 22 := by decide
  exact nextUpc_run (hk k h)

/-- The six pairs of a branch and its entry (R141). -/
theorem branchEntry_mem (b : Branch) : (b, branchEntry b) ∈
    [(Branch.b1, (2 : Fin 23)), (.b2, 6), (.b3, 11), (.b4, 14), (.b5, 19), (.b6, 22)] := by
  cases b <;> decide

/-- A control write goes to the next index, or ends the cycle with FAIL_WRITE at its own (R159). -/
theorem exec_control_upc {k : Fin 23} {s t : State} (hu : s.upc = .run k)
    (hi : microAt k = .wclr ∨ microAt k = .wcpu ∨ microAt k = .wptm ∨ microAt k = .wsta)
    (h : exec (microAt k) s = .next t) :
    t.upc = .run (k + 1) ∨
    (t.upc = .idle ∧ t.res = { code := .failWrite, branch := s.res.branch, loc := k }) := by
  obtain ⟨k', reg, pl, -, hu', -, hcase⟩ := exec_control_next hi h
  obtain rfl : k = k' := by simpa [hu] using hu'
  rcases hcase with rfl | rfl
  · have hnd : microAt k ≠ .done := by rcases hi with e | e | e | e <;> simp [e]
    exact .inl ((congrArg nextUpc hu).trans (nextUpc_of_not_done hnd))
  · exact .inr ⟨rfl, by simp⟩

/-- The micro-ops of the micro-program, the four control writes as one case (R141). -/
theorem microAt_groups (k : Fin 23) :
    microAt k = .rdst ∨ microAt k = .disp ∨
    (microAt k = .wclr ∨ microAt k = .wcpu ∨ microAt k = .wptm ∨ microAt k = .wsta) ∨
    microAt k = .rdpt ∨ microAt k = .publ ∨ microAt k = .lclr ∨ microAt k = .done := by
  simpa only [or_assoc] using microAt_cases k

/-- Settles O46: the micro-op at `upc` runs, and each can end only as its inversion lemma says. -/
theorem microStepMovesUpc : Obligations.MicroStepMovesUpc := by
  intro s t k hu hb h failed
  rw [step_of_turn hu hb] at h
  rcases microAt_groups k with hm | hm | hctl | hm | hm | hm | hm
  · obtain rfl := microAt_rdst.1 hm
    refine .inl ⟨hm, rfl, ?_⟩
    obtain ⟨-, ⟨bytes, -, -, rfl⟩ | rfl⟩ := execRdst_next h
    · exact .inl rfl
    · exact .inr ⟨rfl, by simp⟩
  · obtain rfl := microAt_disp.1 hm
    obtain ⟨-, rfl⟩ := execDisp_next h
    exact .inr (.inl ⟨hm, rfl, _, rfl, branchEntry_mem _⟩)
  · refine .inr (.inr (.inl ⟨?_, exec_control_upc (s := consume s) hu hctl h⟩))
    simpa only [microAt_wclr, microAt_wcpu, microAt_wptm, microAt_wsta, and_self] using hctl
  · obtain rfl := microAt_rdpt.1 hm
    obtain ⟨-, ⟨h0, rfl⟩ | ⟨h0, bytes, -, -, rfl⟩ | ⟨h0, rfl⟩⟩ := execRdpt_next h
    · exact .inr (.inr (.inr (.inr (.inl ⟨hm, rfl, h0, rfl⟩))))
    · exact .inr (.inr (.inr (.inl ⟨hm, rfl, h0, .inl (by simp [hu])⟩)))
    · exact .inr (.inr (.inr (.inl ⟨hm, rfl, h0, .inr ⟨rfl, by simp⟩⟩)))
  · obtain rfl := microAt_publ.1 hm
    obtain ⟨-, rfl⟩ := execPubl_next h
    exact .inr (.inr (.inr (.inr (.inr (.inl ⟨.inl ⟨hm, rfl⟩, rfl⟩)))))
  · rw [hm] at h
    obtain ⟨-, -, -, rfl⟩ := execLclr_next h
    have hnext : nextUpc s.upc = .run (k + 1) := by rw [hu, nextUpc_of_not_done (by simp [hm])]
    exact .inr (.inr (.inr (.inr (.inr (.inl ⟨.inr ⟨hm, microAt_lclr.1 hm⟩, hnext⟩)))))
  · rw [hm] at h
    obtain ⟨-, -, -, rfl⟩ := execDone_next h
    exact .inr (.inr (.inr (.inr (.inr (.inr ⟨hm, microAt_done.1 hm, rfl, rfl⟩)))))

/-! ### The latch after RESET (R45, R280) -/

/-- RESET completes in every state, in flight too, with the latch clear (R281). -/
theorem exec_reset_clears_latch (s : State) : ∃ t, exec .reset s = .next t ∧ t.latch = false :=
  ⟨_, rfl, rfl⟩

/-- Settles O16: the reset state as written, and the RESET event by its meaning. -/
theorem resetClearsTheLatch : Obligations.ResetClearsTheLatch :=
  ⟨rfl, exec_reset_clears_latch⟩

end Sys2Proof.Machine

namespace Sys2Proof.Machine

/-! ### A failed read at the two reading micro-ops (R65, R144, R181) -/

/-- RDST on a queued answer that is `Fail` or short: the failure does not depend on which. -/
theorem exec_rdst_failed_read {s : State} {a : BusAnswer} {rest : List BusAnswer}
    (hu : s.upc = .run 0) (ha : ∀ bytes, a = .ok bytes → bytes.length < 4) :
    exec .rdst { s with answers := a :: rest } = .next (raiseFailure .failStatus 0 { s with
      answers := rest
      trace := .rd s.cfg.devAddr s.cfg.regStatus 4 a :: s.trace }) := by
  have hk : holdsAt s.upc .rdst = true := holdsAt_iff.2 ⟨0, hu, rfl⟩
  have hf : answerFits 4 { s with answers := a :: rest } = true :=
    (answerFits_iff _ _).2 fun bytes hb => (ha bytes hb).le
  calc exec .rdst { s with answers := a :: rest }
      = ifAnswerFits 4 _ (readStatus { s with answers := a :: rest }) := atIndexOf_of_holds hk
    _ = .next (readStatus { s with answers := a :: rest }) := if_pos hf
    _ = _ := congrArg _ (readStatus_fail ha)

/-- RDPT on a queued answer that is `Fail` or shorter than the chunk. -/
theorem exec_rdpt_failed_read {s : State} {a : BusAnswer} {rest : List BusAnswer}
    (hu : s.upc = .run 14) (h0 : s.rem ≠ 0)
    (ha : ∀ bytes, a = .ok bytes → bytes.length < chunkSize s.cfg s.rem) :
    exec .rdpt { s with answers := a :: rest } = .next (raiseFailure .failData 14 { s with
      answers := rest
      trace := .rd s.cfg.devAddr s.cfg.regPointData (chunkSize s.cfg s.rem) a :: s.trace }) := by
  have hk : holdsAt s.upc .rdpt = true := holdsAt_iff.2 ⟨14, hu, rfl⟩
  have hf : answerFits (chunkSize s.cfg s.rem) { s with answers := a :: rest } = true :=
    (answerFits_iff _ _).2 fun bytes hb => (ha bytes hb).le
  calc exec .rdpt { s with answers := a :: rest }
      = if s.rem = 0 then _ else ifAnswerFits (chunkSize s.cfg s.rem) _
          (readChunk { s with answers := a :: rest }) := atIndexOf_of_holds hk
    _ = ifAnswerFits (chunkSize s.cfg s.rem) _ (readChunk { s with answers := a :: rest }) :=
        if_neg h0
    _ = .next (readChunk { s with answers := a :: rest }) := if_pos hf
    _ = _ := congrArg _ (readChunk_fail ha)

/-- Settles O25: both answers are failed reads of one micro-op, and only the trace keeps the answer. -/
theorem shortReadIsAFailure : Obligations.ShortReadIsAFailure := by
  refine fun s bytes rest => ⟨fun hu hl => ?_, fun hu h0 hl => ?_⟩
  · exact ⟨_, _, exec_rdst_failed_read hu (by rintro _ ⟨⟩; exact hl),
      exec_rdst_failed_read hu (by rintro _ ⟨⟩), rfl, rfl⟩
  · exact ⟨_, _, exec_rdpt_failed_read hu h0 (by rintro _ ⟨⟩; exact hl),
      exec_rdpt_failed_read hu h0 (by rintro _ ⟨⟩), rfl, rfl⟩

/-! ### The bus lines an instruction adds to the trace (R80, R102, R142) -/

/-- From `s` to `t` the trace grows by lines that are no bus transactions. -/
def AddsNoBusLine (s t : State) : Prop :=
  ∃ added, t.trace = added ++ s.trace ∧ added.filter isBusLine = []

/-- From `s` to `t` the trace grows by one bus transaction, which is a command of the command map (R102),
and after it by lines that are no bus transactions. -/
def AddsOneCommand (s t : State) : Prop :=
  ∃ after line, t.trace = after ++ line :: s.trace ∧ after.filter isBusLine = [] ∧
    isBusLine line = true ∧ isCommandLine s.cfg line

/-- The instructions that make a bus transaction: six micro-ops and the six bus commands (log 16). -/
def IssuesCommand (i : Instr) : Prop :=
  i ∈ [.rdst, .rdpt, .wclr, .wcpu, .wptm, .wsta, .cmdRdStatus, .cmdClearInt, .cmdStartCpu,
       .cmdPointMode, .cmdStartSampling] ∨ ∃ n, i = .cmdRdPoints n

/-- Lines that are no bus transactions meet the command map, which asks nothing of them. -/
theorem isCommandLine_of_no_bus_line {cfg : Config} {lines : List TraceLine}
    (h : lines.filter isBusLine = []) : ∀ line ∈ lines, isCommandLine cfg line := by
  intro line hl
  have hb := List.filter_eq_nil_iff.1 h line hl
  cases line with
  | rd | wr => exact absurd rfl hb
  | _ => trivial

/-- The status read is CMD_RD_STATUS. -/
theorem isCommandLine_status (cfg : Config) (a : BusAnswer) :
    isCommandLine cfg (.rd cfg.devAddr cfg.regStatus 4 a) :=
  ⟨rfl, .inl ⟨rfl, rfl⟩⟩

/-- The payload read of a chunk that is not empty is CMD_RD_POINTS (R69). -/
theorem isCommandLine_chunk {cfg : Config} {rem : BitVec 16} (h1 : 1 ≤ chunkSize cfg rem)
    (a : BusAnswer) : isCommandLine cfg (.rd cfg.devAddr cfg.regPointData (chunkSize cfg rem) a) :=
  ⟨rfl, .inr ⟨rfl, h1, chunkSize_le_maxXfer cfg rem⟩⟩

/-- A control write with a command's own register and payload is that command (R92). -/
theorem isCommandLine_write {cfg : Config} {reg : BitVec 16} {pl : Payload}
    (h : (reg = cfg.regClearInt ∧ pl = cfg.plClearInt) ∨
      (reg = cfg.regStartCpu ∧ pl = cfg.plStartCpu) ∨
      (reg = cfg.regPointMode ∧ pl = cfg.plPointMode) ∨
      (reg = cfg.regStartSampling ∧ pl = cfg.plStartSampling)) (ok : Bool) :
    isCommandLine cfg (.wr cfg.devAddr reg pl.p0 pl.p1 ok) := by
  refine ⟨rfl, ?_⟩
  rcases h with ⟨rfl, rfl⟩ | ⟨rfl, rfl⟩ | ⟨rfl, rfl⟩ | ⟨rfl, rfl⟩ <;> simp

/-- RDST makes the status read, whatever the answer (R144). -/
theorem execRdst_addsOneCommand {s t : State} (h : execRdst s = .next t) : AddsOneCommand s t := by
  obtain ⟨-, ⟨_, -, -, rfl⟩ | rfl⟩ := execRdst_next h
  · exact ⟨[], _, rfl, rfl, rfl, isCommandLine_status s.cfg _⟩
  · exact ⟨[.pollDone _], _, rfl, rfl, rfl, isCommandLine_status s.cfg _⟩

/-- RDPT reads a chunk while bytes remain, and then reads no more (R181, R182). -/
theorem execRdpt_bus_lines {s t : State} (h : execRdpt s = .next t) :
    AddsNoBusLine s t ∨ AddsOneCommand s t := by
  obtain ⟨-, ⟨-, rfl⟩ | ⟨h0, _, -, -, rfl⟩ | ⟨h0, rfl⟩⟩ := execRdpt_next h
  · exact .inl ⟨[], rfl, rfl⟩
  · exact .inr ⟨[], _, rfl, rfl, rfl, isCommandLine_chunk (chunkSize_pos h0) _⟩
  · exact .inr ⟨[.pollDone _], _, rfl, rfl, rfl, isCommandLine_chunk (chunkSize_pos h0) _⟩

/-- A control-write micro-op makes its write, and a settle delay follows it (R159). -/
theorem exec_control_addsOneCommand {i : Instr} {s t : State}
    (hi : i = .wclr ∨ i = .wcpu ∨ i = .wptm ∨ i = .wsta) (h : exec i s = .next t) :
    AddsOneCommand s t := by
  obtain ⟨k, reg, pl, hw, -, -, hcase⟩ := exec_control_next hi h
  have hcmd := isCommandLine_write (hw.imp And.right (.imp And.right (.imp And.right And.right)))
  rcases hcase with rfl | rfl
  · exact ⟨[.settle _], _, rfl, rfl, rfl, hcmd true⟩
  · exact ⟨[.pollDone _, .settle _], _, rfl, rfl, rfl, hcmd false⟩

/-- A write command makes the write of its micro-op, and a settle delay follows it (R102). -/
theorem execCmdWrite_addsOneCommand {op : Instr} {reg : BitVec 16} {pl : Payload} {s t : State}
    (hw : ∀ ok, isCommandLine s.cfg (.wr s.cfg.devAddr reg pl.p0 pl.p1 ok))
    (h : atIndexOf op s (.next (busWrite reg pl s).2) = .next t) : AddsOneCommand s t := by
  obtain ⟨-, -, -, rfl⟩ := execCmdWrite_next h
  exact ⟨[.settle _], _, rfl, rfl, rfl, hw _⟩

/-- A branch selector adds no line at all (R145). -/
theorem exec_selector_addsNoBusLine {i : Instr} {s t : State} {sw : BitVec 32}
    (hi : i = .branch1 sw ∨ i = .branch2 sw ∨ i = .branch3 sw ∨ i = .branch4Pt sw ∨
      i = .branch4Ges sw ∨ i = .branch5 sw ∨ i = .branch6 sw) (h : exec i s = .next t) :
    AddsNoBusLine s t := by
  obtain ⟨-, -, _, rfl⟩ := exec_selector_next hi h
  exact ⟨[], rfl, rfl⟩

/-- POLL adds its own line, and its return when nothing is latched (R140). -/
theorem execPoll_addsNoBusLine {s t : State} (h : execPoll s = .next t) : AddsNoBusLine s t := by
  obtain ⟨-, ⟨-, rfl⟩ | ⟨-, rfl⟩⟩ := execPoll_next h
  · exact ⟨[.poll], rfl, rfl⟩
  · exact ⟨[.pollDone _, .poll], rfl, rfl⟩

/-- An instruction adds no bus transaction, or it is one that issues a command and adds exactly that one. -/
theorem exec_bus_lines {i : Instr} {s t : State} (h : exec i s = .next t) :
    AddsNoBusLine s t ∨ (IssuesCommand i ∧ AddsOneCommand s t) := by
  cases i with
  | reset | take | irq | query | decode => cases h; exact .inl ⟨[_], rfl, rfl⟩
  | poll => exact .inl (execPoll_addsNoBusLine h)
  | branch1 sw | branch2 sw | branch3 sw | branch4Pt sw | branch4Ges sw | branch5 sw | branch6 sw =>
    exact .inl (exec_selector_addsNoBusLine (sw := sw) (by simp) h)
  | disp => obtain ⟨-, rfl⟩ := execDisp_next h; exact .inl ⟨[], rfl, rfl⟩
  | publ => obtain ⟨-, rfl⟩ := execPubl_next h; exact .inl ⟨[.pub _], rfl, rfl⟩
  | lclr => obtain ⟨-, -, -, rfl⟩ := execLclr_next h; exact .inl ⟨[], rfl, rfl⟩
  | done => obtain ⟨-, -, -, rfl⟩ := execDone_next h; exact .inl ⟨[.pollDone _], rfl, rfl⟩
  | rdst => exact .inr ⟨.inl (by simp), execRdst_addsOneCommand h⟩
  | rdpt => exact (execRdpt_bus_lines h).imp_right fun hc => ⟨.inl (by simp), hc⟩
  | wclr | wcpu | wptm | wsta =>
    exact .inr ⟨.inl (by simp), exec_control_addsOneCommand (by simp) h⟩
  | cmdRdStatus =>
    obtain ⟨-, rfl⟩ := execCmdRdStatus_next h
    exact .inr ⟨.inl (by simp), [], _, rfl, rfl, rfl, isCommandLine_status s.cfg _⟩
  | cmdRdPoints n =>
    obtain ⟨-, hn, h0, rfl⟩ := execCmdRdPoints_next h
    have h1 : 1 ≤ chunkSize s.cfg s.rem := by bv_omega
    exact .inr ⟨.inr ⟨n, rfl⟩, [], _, rfl, rfl, rfl, hn ▸ isCommandLine_chunk h1 _⟩
  | cmdClearInt | cmdStartCpu | cmdPointMode | cmdStartSampling =>
    exact .inr ⟨.inl (by simp), execCmdWrite_addsOneCommand (isCommandLine_write (by simp)) h⟩

/-- Settles O43: no bus line meets every clause, and one command line is the only bus line added. -/
theorem onlySpecifiedBusTransactions : Obligations.OnlySpecifiedBusTransactions := by
  intro i s t h
  rcases exec_bus_lines h with ⟨added, ht, hq⟩ | ⟨hi, after, line, ht, hq, -, hc⟩
  · exact ⟨added, ht, isCommandLine_of_no_bus_line hq, by simp [hq], fun hne => absurd hq hne⟩
  · refine ⟨after ++ [line], by simp [ht], ?_, ?_, fun _ => hi⟩
    · intro l hl
      rcases List.mem_append.1 hl with hl | hl
      · exact isCommandLine_of_no_bus_line hq l hl
      · exact List.mem_singleton.1 hl ▸ hc
    · rw [List.filter_append, hq]
      exact List.length_filter_le isBusLine [line]

end Sys2Proof.Machine

namespace Sys2Proof.Machine

/-! ### The status bits that the decoder reads (R98, R120) -/

/-- Masking keeps a bit that the mask has. -/
theorem getLsbD_and_of_mask {w : Nat} {mask : BitVec w} {i : Nat} (hm : mask.getLsbD i = true)
    (sw : BitVec w) : (sw &&& mask).getLsbD i = sw.getLsbD i := by
  rw [BitVec.getLsbD_and, hm, Bool.and_true]

/-- Clearing bits 2 and 10:4 keeps `SW[31:16]`, as the mask is all ones there (R131). -/
theorem extract_length_and_mask (sw : BitVec 32) :
    (sw &&& 0xFFFFF80B).extractLsb' 16 16 = sw.extractLsb' 16 16 := by
  have hm : (0xFFFFF80B : BitVec 32).extractLsb' 16 16 = BitVec.allOnes 16 := by decide
  rw [BitVec.extractLsb'_and, hm, BitVec.and_allOnes]

/-- Decode reads no reserved bit: each flag is a bit of the mask, and so is each bit of the length. -/
theorem decodeStatus_and_mask (sw : BitVec 32) :
    decodeStatus (sw &&& 0xFFFFF80B) = decodeStatus sw := by
  simp (disch := decide) only [decodeStatus, getLsbD_and_of_mask, extract_length_and_mask]

/-- Settles O9: Decode factors through the mask, and the branch is a function of the decoded status. -/
theorem reservedStatusBitsIgnored : Obligations.ReservedStatusBitsIgnored := by
  intro cfg sw sw' h
  have hd : decodeStatus sw = decodeStatus sw' := by
    rw [← decodeStatus_and_mask sw, h, decodeStatus_and_mask]
  exact ⟨hd, congrArg (branchOf cfg) hd⟩

end Sys2Proof.Machine


namespace Sys2Proof.Machine

/-! ### The status bytes that the decoder reads (R120, R122 to R125, R127 to R131) -/

/-- Bits 7:0 of the payload are those of `b0`. -/
theorem getLsbD_packWord_byte0 {i : Nat} (hi : i < 8) (b0 b1 b2 b3 : Byte) :
    (packWord b0 b1 b2 b3).getLsbD i = b0.getLsbD i := by
  simp only [packWord, BitVec.getLsbD_append, hi, if_true]

/-- Bits 15:8 of the payload are those of `b1`. -/
theorem getLsbD_packWord_byte1 {i : Nat} (hi : i < 8) (b0 b1 b2 b3 : Byte) :
    (packWord b0 b1 b2 b3).getLsbD (i + 8) = b1.getLsbD i := by
  have hle : ¬ i + 8 < 8 := by omega
  simp only [packWord, BitVec.getLsbD_append, hle, hi, if_true, if_false,
    Nat.add_sub_cancel]

/-- `SW[31:16]` is `b3` above `b2` (R131). -/
theorem extract_length_packWord (b0 b1 b2 b3 : Byte) :
    (packWord b0 b1 b2 b3).extractLsb' 16 16 = b3 ++ b2 := by
  apply BitVec.eq_of_toNat_eq
  have h0 := b0.isLt; have h1 := b1.isLt; have h2 := b2.isLt; have h3 := b3.isLt
  rw [BitVec.extractLsb'_toNat, packWord_toNat, append_toNat, Nat.shiftRight_eq_div_pow]
  omega

/-- Decode of the four status bytes: each flag is a bit of `b0` or `b1`, and the length is `b3` above `b2`. -/
theorem decodeStatus_packWord (b0 b1 b2 b3 : Byte) :
    decodeStatus (packWord b0 b1 b2 b3) =
      { ptExist := b0.getLsbD 0, gesture := b0.getLsbD 1, aux := b0.getLsbD 3
        cpuRunning := b1.getLsbD 3, intLow := b1.getLsbD 4, inCpuState := b1.getLsbD 5
        inBootRom := b1.getLsbD 6, busy := b1.getLsbD 7
        key := false, keep := false, rawOrPt := false
        pendingLength := b3 ++ b2 } := by
  have low {i : Nat} (hi : i < 8) := getLsbD_packWord_byte0 hi b0 b1 b2 b3
  have high {i : Nat} (hi : i < 8) := getLsbD_packWord_byte1 hi b0 b1 b2 b3
  rw [StatusWord.mk.injEq]
  exact ⟨low (by decide), low (by decide), rfl, low (by decide), rfl, rfl,
    high (by decide), high (by decide), high (by decide), high (by decide), high (by decide),
    extract_length_packWord b0 b1 b2 b3⟩

/-- Settles O7: the payload is the packed status bytes, whose decoded fields are known; the length
`b3 ++ b2` is `b3 * 256 + b2` as a number. -/
theorem statusFieldsAreTheSpecBits : Obligations.StatusFieldsAreTheSpecBits := by
  intro b0 b1 b2 b3 st
  have hst : st = _ := decodeStatus_packWord b0 b1 b2 b3
  rw [hst]
  exact ⟨rfl, rfl, rfl, rfl, rfl, rfl, rfl, rfl, append_toNat b3 b2⟩

end Sys2Proof.Machine

namespace Sys2Proof.Machine

/-! ### The order of reads in a cycle (R69, R103, R162, R181) -/

/-- The reads a cycle at index `k` has made, all answered in full: none before RDST, then the status read,
and in branch 4 the payload up to `OFF`. -/
def readsMadeAt (s : State) (k : Fin 23) : List BusReadRecord :=
  if k = 0 then [] else
    statusRead s.cfg true ::
      (if branchAt k = some .b4 then chunkReads s.cfg s.off.toNat else [])

/-- The order of reads says of every state in flight which reads its cycle has made. -/
theorem ReadsInOrder.at_run {s : State} {k : Fin 23} (h : ReadsInOrder s) (hu : s.upc = .run k) :
    cycleReads s = readsMadeAt s k := by
  unfold readsMadeAt
  split
  · next h0 => exact h.entry (h0 ▸ hu)
  · next h0 =>
    split
    · next h4 => exact (h.assembler k hu h4).1
    · next h4 => exact h.plain k hu (Nat.one_le_iff_ne_zero.2 (Fin.val_ne_zero_iff.2 h0)) h4

/-- A state in flight keeps the order when its reads are those of its index and, in branch 4 with bytes
left, all its chunks were full. -/
theorem ReadsInOrder.of_run {s : State} {k : Fin 23} (hu : s.upc = .run k)
    (hr : s.res.code = .running) (hreads : cycleReads s = readsMadeAt s k)
    (hfull : branchAt k = some .b4 → s.rem ≠ 0 → s.off.toNat % s.cfg.maxXfer = 0) :
    ReadsInOrder s where
  entry h := by
    obtain rfl : k = 0 := by simpa [hu] using h
    exact hreads
  plain k' h h1 h4 := by
    obtain rfl : k = k' := by simpa [hu] using h
    have h0 : k ≠ 0 := Fin.val_ne_zero_iff.1 (Nat.one_le_iff_ne_zero.1 h1)
    simpa [readsMadeAt, h0, h4] using hreads
  assembler k' h h4 := by
    obtain rfl : k = k' := by simpa [hu] using h
    have h0 : k ≠ 0 := by rintro rfl; cases h4
    exact ⟨by simpa [readsMadeAt, h0, h4] using hreads, hfull h4⟩
  afterOk h := by simp [hr] at h
  afterFailedWrite h := by simp [hr] at h
  afterFailedStatus h := by simp [hr] at h
  afterFailedData h := by simp [hr] at h

/-- An idle state keeps the order through the clause of its result; NO_EVENT has none. -/
theorem ReadsInOrder.of_idle {s : State} (hu : s.upc = .idle)
    (hrow : s.res.code = .ok ∨ s.res.code = .failWrite → cycleReads s = rowReads s)
    (hstatus : s.res.code = .failStatus → cycleReads s = [statusRead s.cfg false])
    (hdata : s.res.code = .failData → s.res.branch = some .b4 ∧ s.rem ≠ 0 ∧
      s.off.toNat + s.rem.toNat = (decodeStatus s.sw).pendingLength.toNat ∧
      s.off.toNat % s.cfg.maxXfer = 0 ∧
      cycleReads s = statusRead s.cfg true :: chunkReads s.cfg s.off.toNat ++
        [payloadRead s.cfg (chunkSize s.cfg s.rem) false]) : ReadsInOrder s where
  entry h := by simp [hu] at h
  plain _ h := by simp [hu] at h
  assembler _ h := by simp [hu] at h
  afterOk h := hrow (.inl h)
  afterFailedWrite h := hrow (.inr h)
  afterFailedStatus := hstatus
  afterFailedData := hdata

/-- The order reads neither the latch, nor the touch buffer, nor SCRATCH, nor the requests and answers. -/
theorem ReadsInOrder.congr {s t : State} (h : ReadsInOrder s) (hcfg : t.cfg = s.cfg)
    (hupc : t.upc = s.upc) (hsw : t.sw = s.sw) (hrem : t.rem = s.rem) (hoff : t.off = s.off)
    (hres : t.res = s.res) (hreads : cycleReads t = cycleReads s) : ReadsInOrder t := by
  obtain ⟨entry, plain, assembler, afterOk, afterFailedWrite, afterFailedStatus, afterFailedData⟩ := h
  constructor <;> simp only [rowReads, hcfg, hupc, hsw, hrem, hoff, hres, hreads] <;> assumption

/-- A read goes to the end of the cycle's reads, with its outcome. -/
theorem cycleReads_rd {s t : State} {dev n : Nat} {reg : BitVec 16} {a : BusAnswer}
    (ht : t.trace = .rd dev reg n a :: s.trace) :
    cycleReads t = cycleReads s ++ [(reg, n, (completeBytes a n).isSome)] := by
  unfold cycleReads
  rw [ht]
  exact List.reverse_cons

/-- Raising a failure makes no read. -/
theorem cycleReads_raiseFailure (f : ResCode) (loc : Fin 23) (s : State) :
    cycleReads (raiseFailure f loc s) = cycleReads s := rfl

/-- RDST raises its failure only on an answer that is not complete (R144). -/
theorem execRdst_idle {s t : State} (h : execRdst s = .next t) (ht : t.upc = .idle) :
    completeBytes (takeAnswer 4 s).1 4 = none := by
  obtain ⟨-, h⟩ := atIndexOf_next h
  obtain ⟨-, rfl⟩ := ifAnswerFits_next h
  rcases hc : completeBytes (takeAnswer 4 s).1 4 with _ | bytes
  · rfl
  · obtain ⟨ha, hl⟩ := completeBytes_eq_some.1 hc
    rw [readStatus_ok ha hl] at ht
    cases ht

/-- RDPT raises its failure only on an answer that is not a complete chunk (R181). -/
theorem execRdpt_idle {s t : State} (h : execRdpt s = .next t) (ht : t.upc = .idle) :
    completeBytes (takeAnswer (chunkSize s.cfg s.rem) s).1 (chunkSize s.cfg s.rem) = none := by
  obtain ⟨hu, -⟩ := execRdpt_next h
  obtain ⟨-, h⟩ := atIndexOf_next h
  rcases hc : completeBytes (takeAnswer (chunkSize s.cfg s.rem) s).1 (chunkSize s.cfg s.rem)
    with _ | bytes
  · rfl
  · obtain ⟨ha, hl⟩ := completeBytes_eq_some.1 hc
    split at h
    · cases h; cases ht
    · obtain ⟨-, rfl⟩ := ifAnswerFits_next h
      rw [readChunk_ok ha hl] at ht
      simp [hu] at ht

/-- RDST makes the first read of its cycle: answered in full it leads to index 1, and else it is the
failed status read. -/
theorem execRdst_keeps_reads {s t : State} (hI : Inv s) (h : ReadsInOrder s)
    (he : execRdst s = .next t) : ReadsInOrder t := by
  obtain ⟨hu, hcase⟩ := execRdst_next he
  have hnone : cycleReads s = [] := h.entry hu
  rcases hcase with ⟨bytes, ha, hl, rfl⟩ | rfl
  · have hc : completeBytes (takeAnswer 4 s).1 4 = some bytes :=
      completeBytes_eq_some.2 ⟨ha, hl.ge⟩
    refine .of_run rfl ?_ ?_ (fun h4 => by cases h4)
    · simpa using hI.running.1 (by simp [hu])
    · rw [cycleReads_rd rfl, hnone, hc]
      simp [readsMadeAt, statusRead, branchAt]
  · have hc := execRdst_idle he rfl
    refine .of_idle rfl (by simp) (fun _ => ?_) (by simp)
    rw [cycleReads_raiseFailure, cycleReads_rd rfl, hnone, hc]
    simp [statusRead]

/-- DISP makes no read, and branch 4 starts with no payload read. -/
theorem execDisp_keeps_reads {s t : State} (hI : Inv s) (h : ReadsInOrder s)
    (he : execDisp s = .next t) : ReadsInOrder t := by
  obtain ⟨hu, rfl⟩ := execDisp_next he
  have hreads : cycleReads s = [statusRead s.cfg true] := h.at_run hu
  have hrun : s.res.code = .running := hI.running.1 (by simp [hu])
  generalize branchOf s.cfg (decodeStatus s.sw) = b
  have hentry : branchAt (branchEntry b) = some b ∧ branchEntry b ≠ 0 := by cases b <;> decide
  refine .of_run rfl hrun (hreads.trans ?_) (fun h4 _ => ?_)
  · cases b <;> simp [readsMadeAt, hentry, chunkReads]
  · obtain rfl : b = .b4 := by simpa [hentry] using h4
    simp

/-- A micro-op that goes straight on to the next index and makes no read. -/
theorem ReadsInOrder.next_index {s t : State} {k : Fin 23} (hI : Inv s) (h : ReadsInOrder s)
    (hu : s.upc = .run k) (hk : k ∉ [0, 1, 5, 10, 13, 14, 18, 21, 22])
    (hupc : t.upc = nextUpc s.upc) (hcfg : t.cfg = s.cfg) (hrem : t.rem = s.rem)
    (hoff : t.off = s.off) (hres : t.res = s.res) (hreads : cycleReads t = cycleReads s) :
    ReadsInOrder t := by
  obtain ⟨hlast, hbranch, htwo, -, -⟩ := next_index_facts k hk
  have hrun : s.res.code = .running := hI.running.1 (by simp [hu])
  have h0 : k ≠ 0 ∧ k + 1 ≠ 0 := by grind
  refine .of_run (k := k + 1) ?_ (by rw [hres, hrun]) ?_ ?_
  · rw [hupc, hu, nextUpc_run hlast]
  · rw [hreads, h.at_run hu]
    simp [readsMadeAt, h0, hcfg, hoff, hbranch]
  · rw [hbranch, hrem, hoff, hcfg]
    exact fun h4 => (h.assembler k hu h4).2

/-- From a run's end of reads on, a cycle has made all reads of its row. -/
theorem readsMadeAt_eq_rowReads {s : State} {k : Fin 23} (hI : Inv s) (hu : s.upc = .run k)
    (hk : k ∉ [0, 1, 14]) : readsMadeAt s k = rowReads s := by
  have hpos : ∀ k : Fin 23, k ∉ [0, 1, 14] →
      k ≠ 0 ∧ (branchAt k = some .b4 → 15 ≤ k.val) := by decide
  obtain ⟨h0, h15⟩ := hpos k hk
  unfold readsMadeAt rowReads
  rw [if_neg h0, hI.resBranch k hu]
  split
  · next h4 =>
    have hsum := hI.payload k hu h4
    have hrem := hI.complete k hu h4 (h15 h4)
    rw [hrem] at hsum
    rw [← hsum]; rfl
  · rfl

/-- A control write makes no read: it goes on, or fails after all reads of its run. -/
theorem exec_control_keeps_reads {s t : State} {k : Fin 23} (hI : Inv s) (h : ReadsInOrder s)
    (hu : s.upc = .run k)
    (hi : microAt k = .wclr ∨ microAt k = .wcpu ∨ microAt k = .wptm ∨ microAt k = .wsta)
    (he : exec (microAt k) s = .next t) : ReadsInOrder t := by
  obtain ⟨k', reg, pl, -, hu', -, hcase⟩ := exec_control_next hi he
  obtain rfl : k = k' := by simpa [hu] using hu'
  have hk : ∀ k : Fin 23, microAt k = .wclr ∨ microAt k = .wcpu ∨ microAt k = .wptm ∨
      microAt k = .wsta → k ∉ [0, 1, 5, 10, 13, 14, 18, 21, 22] := by decide
  have hmem := hk k hi
  rcases hcase with rfl | rfl
  · exact h.next_index hI hu hmem rfl (by simp) (by simp) (by simp) (by simp) rfl
  · refine .of_idle rfl (fun _ => ?_) (by simp) (by simp)
    calc cycleReads _ = cycleReads s := rfl
      _ = readsMadeAt s k := h.at_run hu
      _ = rowReads s := readsMadeAt_eq_rowReads hI hu (by grind)
      _ = _ := by simp [rowReads]

/-- A chunk that leaves bytes to read is a full one (R181). -/
theorem chunkSize_of_rem_left {cfg : Config} {rem : BitVec 16}
    (h : rem - BitVec.ofNat 16 (chunkSize cfg rem) ≠ 0) : chunkSize cfg rem = cfg.maxXfer := by
  have hleft : (rem - BitVec.ofNat 16 (chunkSize cfg rem)).toNat ≠ 0 := by
    simpa [BitVec.toNat_eq] using h
  rw [rem_sub_chunk] at hleft
  unfold chunkSize at hleft ⊢
  omega

/-- RDPT reads one chunk more while bytes remain: a full one keeps the count of `OFF`, a failed one ends
the cycle. -/
theorem execRdpt_keeps_reads {s t : State} (hI : Inv s) (h : ReadsInOrder s)
    (he : execRdpt s = .next t) : ReadsInOrder t := by
  obtain ⟨hu, hcase⟩ := execRdpt_next he
  obtain ⟨hreads, hfull⟩ := h.assembler 14 hu rfl
  obtain ⟨hsum, hfits⟩ := hI.counters_at_rdpt hu
  have hrun : s.res.code = .running := hI.running.1 (by simp [hu])
  have hbranch : s.res.branch = some .b4 := hI.resBranch 14 hu
  rcases hcase with ⟨h0, rfl⟩ | ⟨h0, bytes, ha, hl, rfl⟩ | ⟨h0, rfl⟩
  · exact .of_run rfl hrun hreads fun _ hne => absurd h0 hne
  · have hc : completeBytes (takeAnswer (chunkSize s.cfg s.rem) s).1 (chunkSize s.cfg s.rem) =
        some bytes := completeBytes_eq_some.2 ⟨ha, hl.ge⟩
    refine .of_run (k := 14) (by simpa using hu) (by simpa using hrun) ?_ (fun _ hne => ?_)
    · rw [cycleReads_rd rfl, hreads, hc]
      simp [readsMadeAt, branchAt, off_add_chunk hfits,
        chunkReads_add s.cfg _ _ (hfull h0) (chunkSize_pos h0) (chunkSize_le_maxXfer _ _), payloadRead]
    · have hM : chunkSize s.cfg s.rem = s.cfg.maxXfer := chunkSize_of_rem_left hne
      simp only [takeAnswer_cfg]
      rw [off_add_chunk hfits, hM, Nat.add_mod_right, hfull h0]
  · have hc := execRdpt_idle he rfl
    refine .of_idle rfl (by simp) (by simp) (fun _ => ?_)
    refine ⟨by simpa using hbranch, by simpa using h0, by simpa using hsum,
      by simpa using hfull h0, ?_⟩
    rw [cycleReads_raiseFailure, cycleReads_rd rfl, hreads, hc]
    simp [payloadRead]

/-- DONE ends a cycle that has made all reads of its row. -/
theorem execDone_keeps_reads {s t : State} (hI : Inv s) (h : ReadsInOrder s)
    (he : execDone s = .next t) : ReadsInOrder t := by
  obtain ⟨k, hu, hm, rfl⟩ := execDone_next he
  have hk : ∀ k : Fin 23, microAt k = .done → k ∉ [0, 1, 14] := by decide
  refine .of_idle rfl (fun _ => ?_) (by simp) (by simp)
  calc cycleReads (finishCycle s) = cycleReads s := rfl
    _ = readsMadeAt s k := h.at_run hu
    _ = rowReads s := readsMadeAt_eq_rowReads hI hu (hk k hm)
    _ = _ := rfl

/-- The micro-op at `upc` keeps the order of reads. -/
theorem exec_micro_keeps_reads {s t : State} {k : Fin 23} (hI : Inv s) (h : ReadsInOrder s)
    (hu : s.upc = .run k) (he : exec (microAt k) s = .next t) : ReadsInOrder t := by
  rcases microAt_groups k with hm | hm | hctl | hm | hm | hm | hm
  · rw [hm] at he; exact execRdst_keeps_reads hI h he
  · rw [hm] at he; exact execDisp_keeps_reads hI h he
  · exact exec_control_keeps_reads hI h hu hctl he
  · rw [hm] at he; exact execRdpt_keeps_reads hI h he
  · obtain rfl := microAt_publ.1 hm
    obtain ⟨-, rfl⟩ := execPubl_next he
    exact h.next_index hI hu (by decide) (by rw [hu]; rfl) rfl rfl rfl rfl rfl
  · rw [hm] at he
    obtain ⟨-, -, -, rfl⟩ := execLclr_next he
    have hk : ∀ k : Fin 23, microAt k = .lclr → k ∉ [0, 1, 5, 10, 13, 14, 18, 21, 22] := by decide
    exact h.next_index hI hu (hk k hm) rfl rfl rfl rfl rfl rfl
  · rw [hm] at he; exact execDone_keeps_reads hI h he

/-- The five events keep the order of reads: POLL starts a cycle with none, RESET and a POLL with nothing
latched leave no cycle to speak of, and the others change nothing the order reads. -/
theorem exec_event_keeps_reads {s t : State} {i : Instr} (h : ReadsInOrder s)
    (hi : i = .reset ∨ i = .irq ∨ i = .poll ∨ i = .take ∨ i = .query)
    (he : exec i s = .next t) : ReadsInOrder t := by
  rcases hi with rfl | rfl | rfl | rfl | rfl
  · cases he
    exact .of_idle rfl (by rintro (⟨⟨⟩⟩ | ⟨⟨⟩⟩)) (by rintro ⟨⟩) (by rintro ⟨⟩)
  · cases he; exact h.congr rfl rfl rfl rfl rfl rfl rfl
  · obtain ⟨hu, ⟨-, rfl⟩ | ⟨-, rfl⟩⟩ := execPoll_next he
    · exact .of_run (k := 0) rfl rfl rfl (by rintro ⟨⟩)
    · exact .of_idle hu (by rintro (⟨⟨⟩⟩ | ⟨⟨⟩⟩)) (by rintro ⟨⟩) (by rintro ⟨⟩)
  · cases he; exact h.congr rfl rfl rfl rfl rfl rfl rfl
  · cases he; exact h.congr rfl rfl rfl rfl rfl rfl rfl

/-- Settles O50: each micro-op keeps the order by its own lemma, the reads of a cycle being a function of
its index and `OFF`; the events do not read the bus. -/
theorem stepKeepsReadsInOrder : Obligations.StepKeepsReadsInOrder := by
  intro s t hI h hstep
  have hc : ReadsInOrder (consume s) := h.congr rfl rfl rfl rfl rfl rfl rfl
  refine step_next_cases hstep hc (fun i hi he => exec_event_keeps_reads hc hi he)
    (fun sw he => ?_) (fun k hu he => exec_micro_keeps_reads hI.consume hc hu he)
  cases he
  exact hc.congr rfl rfl rfl rfl rfl rfl rfl

end Sys2Proof.Machine

namespace Sys2Proof.Machine

/-! ### What RDST and the control writes do at their indices (R144, R159) -/

/-- A micro-op acts at an index that holds it. -/
theorem atIndexOf_of_run {s : State} {k : Fin 23} {op : Instr} (hu : s.upc = .run k)
    (hm : microAt k = op) (act : StepOutcome) : atIndexOf op s act = act :=
  atIndexOf_of_holds (holdsAt_iff.2 ⟨k, hu, hm⟩)

/-- A read that fits is made. -/
theorem ifAnswerFits_of_le {n : Nat} {s t : State}
    (h : ∀ bytes, (takeAnswer n s).1 = .ok bytes → bytes.length ≤ n) :
    ifAnswerFits n s t = .next t :=
  if_pos ((answerFits_iff n s).2 h)

/-- RDST on an answer of four bytes. -/
theorem exec_rdst_of_ok {s : State} {b0 b1 b2 b3 : Byte} (hu : s.upc = .run 0)
    (ha : (takeAnswer 4 s).1 = .ok [b0, b1, b2, b3]) :
    exec .rdst s = .next { (takeAnswer 4 s).2 with
      sw := b3 ++ b2 ++ b1 ++ b0
      upc := .run 1
      trace := .rd s.cfg.devAddr s.cfg.regStatus 4 (takeAnswer 4 s).1 :: s.trace } := by
  have hfit : ∀ bytes, (takeAnswer 4 s).1 = .ok bytes → bytes.length ≤ 4 := by simp [ha]
  calc exec .rdst s = ifAnswerFits 4 s (readStatus s) := atIndexOf_of_run hu rfl _
    _ = .next (readStatus s) := ifAnswerFits_of_le hfit
    _ = _ := congrArg _ (readStatus_ok ha (by simp))

/-- RDST on an answer that fails or is short, queued or free. -/
theorem exec_rdst_of_short {s : State} (hu : s.upc = .run 0)
    (ha : ∀ bytes, (takeAnswer 4 s).1 = .ok bytes → bytes.length < 4) :
    exec .rdst s = .next (raiseFailure .failStatus 0 { (takeAnswer 4 s).2 with
      trace := .rd s.cfg.devAddr s.cfg.regStatus 4 (takeAnswer 4 s).1 :: s.trace }) := by
  calc exec .rdst s = ifAnswerFits 4 s (readStatus s) := atIndexOf_of_run hu rfl _
    _ = .next (readStatus s) := ifAnswerFits_of_le fun bytes hb => (ha bytes hb).le
    _ = _ := congrArg _ (readStatus_fail ha)

/-- Settles O24: the two lemmas on RDST, and the latch, which RDST keeps, is set before any LCLR. -/
theorem rdstLoadsTheStatus : Obligations.RdstLoadsTheStatus := by
  intro s hu a after read failed
  refine ⟨fun b0 b1 b2 b3 ha => exec_rdst_of_ok hu ha, fun ha => ?_, fun hI => ?_⟩
  · rw [exec_rdst_of_short hu ha]
    simp [raiseFailure, after, read, failed, a]
  · rw [takeAnswer_latch]
    exact hI.latch 0 hu rfl

/-- A control write that succeeds goes on to the next index, after its settle delay. -/
theorem controlWrite_ok_at {s : State} {k : Fin 23} {reg : BitVec 16} {pl : Payload}
    (hu : s.upc = .run k) (hk : k.val < 22) (ha : (takeAnswer 0 s).1 ≠ .fail) :
    controlWrite reg pl s = { (takeAnswer 0 s).2 with
      upc := .run (k + 1)
      trace := .settle s.cfg.tSettle :: .wr s.cfg.devAddr reg pl.p0 pl.p1 true :: s.trace } := by
  rw [controlWrite_ok ha, hu, nextUpc_run hk]

/-- A control write that fails ends the cycle at its own index, after its settle delay. -/
theorem controlWrite_fail_at {s : State} {k : Fin 23} {reg : BitVec 16} {pl : Payload}
    (hu : s.upc = .run k) (ha : (takeAnswer 0 s).1 = .fail) :
    controlWrite reg pl s = raiseFailure .failWrite k { (takeAnswer 0 s).2 with
      trace := .settle s.cfg.tSettle :: .wr s.cfg.devAddr reg pl.p0 pl.p1 false :: s.trace } := by
  rw [controlWrite_fail ha, hu]; rfl

/-- Each of the four control writes, at each of its indices, is the control write of its command. -/
theorem exec_control_eq {s : State} {k : Fin 23} {op : Instr} {reg : BitVec 16} {pl : Payload}
    (hop : (op = .wclr ∧ k ∈ [2, 8, 11, 16, 19] ∧ reg = s.cfg.regClearInt ∧ pl = s.cfg.plClearInt) ∨
      (op = .wcpu ∧ k = 3 ∧ reg = s.cfg.regStartCpu ∧ pl = s.cfg.plStartCpu) ∨
      (op = .wptm ∧ k = 6 ∧ reg = s.cfg.regPointMode ∧ pl = s.cfg.plPointMode) ∨
      (op = .wsta ∧ k = 7 ∧ reg = s.cfg.regStartSampling ∧ pl = s.cfg.plStartSampling))
    (hu : s.upc = .run k) : exec op s = .next (controlWrite reg pl s) ∧ k.val < 22 := by
  have hlast : ∀ k : Fin 23, k ∈ [2, 8, 11, 16, 19] → k.val < 22 := by decide
  rcases hop with ⟨rfl, hk, rfl, rfl⟩ | ⟨rfl, rfl, rfl, rfl⟩ | ⟨rfl, rfl, rfl, rfl⟩ |
    ⟨rfl, rfl, rfl, rfl⟩
  · exact ⟨atIndexOf_of_run hu (microAt_wclr.2 hk) _, hlast k hk⟩
  all_goals exact ⟨atIndexOf_of_run hu rfl _, by decide⟩

/-- Settles O28: the four micro-ops have one body, whose two outcomes are known. -/
theorem controlWritesAdvanceOrAbort : Obligations.ControlWritesAdvanceOrAbort := by
  intro s k op reg pl hop hu a after lines failed
  obtain ⟨hexec, hk⟩ := exec_control_eq hop hu
  refine ⟨fun ha => ?_, fun ha => ?_⟩
  · rw [hexec, controlWrite_ok_at hu hk ha]
  · rw [hexec, controlWrite_fail_at hu ha]
    simp [raiseFailure, after, lines, failed]

/-! ### The six branches (R146) -/

/-- `Branch(s)` with its conditions as R146 states them. -/
theorem branchOf_eq (cfg : Config) (st : StatusWord) : branchOf cfg st =
    if st.inBootRom = true then .b1
    else if st.inCpuState = true ∧ samplingPred cfg.sampling st = false then .b2
    else if st.cpuRunning = true ∧ st.pendingLength = 0 then .b3
    else if st.ptExist = true ∨ st.gesture = true then .b4
    else if st.cpuRunning = true ∧ st.aux = true then .b5
    else .b6 := by
  simp [branchOf]

/-- In a list of conditions, a branch is taken when its own holds and none before it. -/
theorem first_condition_iff {p1 p2 p3 p4 p5 : Prop} [Decidable p1] [Decidable p2] [Decidable p3]
    [Decidable p4] [Decidable p5] {b : Branch}
    (hb : b = if p1 then .b1 else if p2 then .b2 else if p3 then .b3 else if p4 then .b4
      else if p5 then .b5 else .b6) :
    (b = .b1 ↔ p1) ∧ (b = .b2 ↔ ¬p1 ∧ p2) ∧ (b = .b3 ↔ ¬p1 ∧ ¬p2 ∧ p3) ∧
    (b = .b4 ↔ ¬p1 ∧ ¬p2 ∧ ¬p3 ∧ p4) ∧ (b = .b5 ↔ ¬p1 ∧ ¬p2 ∧ ¬p3 ∧ ¬p4 ∧ p5) ∧
    (b = .b6 ↔ ¬p1 ∧ ¬p2 ∧ ¬p3 ∧ ¬p4 ∧ ¬p5) := by
  subst hb
  by_cases h1 : p1
  · simp [h1]
  by_cases h2 : p2
  · simp [h1, h2]
  by_cases h3 : p3
  · simp [h1, h2, h3]
  by_cases h4 : p4
  · simp [h1, h2, h3, h4]
  by_cases h5 : p5 <;> simp [h1, h2, h3, h4, h5]

/-- Settles O11: `Branch(s)` is R146's list of conditions, and of such a list the first that holds decides. -/
theorem branchTakesFirstConditionThatHolds : Obligations.BranchTakesFirstConditionThatHolds := by
  intro cfg st arm empty data event
  have hfirst := first_condition_iff (branchOf_eq cfg st)
  rwa [Bool.not_eq_true] at hfirst

end Sys2Proof.Machine

namespace Sys2Proof.Machine

/-! ### How many steps a cycle can still take (R163) -/

/-- How many reads `n` payload bytes need at most: `n / MAX_XFER`, rounded up (R103). -/
def chunkCount (cfg : Config) (n : Nat) : Nat := (n + cfg.maxXfer - 1) / cfg.maxXfer

/-- The micro-ops from index `k` to the end of its run in the micro-program, its DONE included (R141). -/
def stepsToDone (k : Fin 23) : Nat := (microProgram.toList.drop k.val).idxOf .done + 1

/-- The steps that the payload can add to a cycle at index `k`: before the branch is known those of the longest
payload and the one step by which branch 2 and branch 4 are longer than the entry's own count, at RDPT the
chunks left, and elsewhere none. -/
def payloadSteps (s : State) (k : Fin 23) : Nat :=
  if k.val < 2 then chunkCount s.cfg 65535 + 1
  else if k = 14 then chunkCount s.cfg s.rem.toNat
  else 0

/-- A bound on the steps the cycle in flight can still take; 0 when idle. -/
def stepsLeft (s : State) : Nat :=
  match s.upc with
  | .idle => 0
  | .run k => stepsToDone k + payloadSteps s k

theorem stepsLeft_run {s : State} {k : Fin 23} (hu : s.upc = .run k) :
    stepsLeft s = stepsToDone k + payloadSteps s k := by
  simp [stepsLeft, hu]

theorem exists_run_of_ne_idle {u : Upc} (h : u ≠ .idle) : ∃ k, u = .run k := by
  cases u with
  | idle => exact absurd rfl h
  | run k => exact ⟨k, rfl⟩

theorem stepsLeft_pos {s : State} (hu : s.upc ≠ .idle) : 0 < stepsLeft s := by
  obtain ⟨k, hk⟩ := exists_run_of_ne_idle hu
  rw [stepsLeft_run hk, stepsToDone]
  omega

/-- More bytes need no fewer reads. -/
theorem chunkCount_mono (cfg : Config) {m n : Nat} (h : m ≤ n) : chunkCount cfg m ≤ chunkCount cfg n :=
  Nat.div_le_div_right (by omega)

/-- In its run a cycle has at most the chunks of the longest payload to read. -/
theorem payloadSteps_le_of_two_le (s : State) {k : Fin 23} (hk : 2 ≤ k.val) :
    payloadSteps s k ≤ chunkCount s.cfg 65535 := by
  have hrem := s.rem.isLt
  unfold payloadSteps
  rw [if_neg (by omega)]
  split
  · exact chunkCount_mono s.cfg (by omega)
  · exact Nat.zero_le _

/-- No state has more steps left than the entry with the longest payload. -/
theorem stepsLeft_le (s : State) : stepsLeft s ≤ chunkCount s.cfg 65535 + 7 := by
  have hdone : ∀ k : Fin 23, stepsToDone k ≤ 6 := by decide
  cases hu : s.upc with
  | idle => simp [stepsLeft, hu]
  | run k =>
    rw [stepsLeft_run hu]
    have hk := hdone k
    rcases Nat.lt_or_ge k.val 2 with h2 | h2
    · have hentry : payloadSteps s k = chunkCount s.cfg 65535 + 1 := if_pos h2
      omega
    · have hrun := payloadSteps_le_of_two_le s h2
      omega

/-- A chunk read leaves one read less. -/
theorem chunkCount_after_chunk {cfg : Config} {rem : BitVec 16} (h : rem ≠ 0) :
    chunkCount cfg (rem - BitVec.ofNat 16 (chunkSize cfg rem)).toNat < chunkCount cfg rem.toNat := by
  have hM := config_maxXfer_pos cfg
  have hpos : 1 ≤ rem.toNat := (chunkSize_pos (cfg := cfg) h).trans (chunkSize_le_rem cfg rem)
  rw [rem_sub_chunk]
  unfold chunkCount chunkSize
  rcases Nat.lt_or_ge rem.toNat cfg.maxXfer with hlt | hge
  · rw [Nat.min_eq_left hlt.le, Nat.div_eq_of_lt (by omega)]
    exact Nat.div_pos (by omega) hM
  · rw [Nat.min_eq_right hge, show rem.toNat - cfg.maxXfer + cfg.maxXfer - 1 = rem.toNat - 1 by omega,
      show rem.toNat + cfg.maxXfer - 1 = rem.toNat - 1 + cfg.maxXfer by omega,
      Nat.add_div_right _ hM]
    exact Nat.lt_succ_self _

/-- One index further on in a run the end is one step nearer. -/
theorem stepsToDone_succ : ∀ k : Fin 23, microAt k ≠ .done →
    stepsToDone (k + 1) < stepsToDone k := by decide

/-- From its entry a run takes at most the five steps that it takes from DISP. -/
theorem stepsToDone_entry (b : Branch) : stepsToDone (branchEntry b) ≤ stepsToDone 1 := by
  cases b <;> decide

/-- The cycle has ended: idle, with `OK` or a failure in `RES`, which POLL has returned. -/
def CycleEnded (s : State) : Prop :=
  s.upc = .idle ∧ (s.res.code = .ok ∨ isFailure s.res.code = true) ∧
    s.trace.head? = some (.pollDone s.res)

/-- From `s` to `t` the cycle in flight has come nearer to its end, with nothing new requested. -/
def CycleComesNearer (s t : State) : Prop :=
  t.upc ≠ .idle ∧ t.inbox = s.inbox ∧ stepsLeft t < stepsLeft s

theorem cycleEnded_raiseFailure {f : ResCode} (hf : isFailure f = true) (loc : Fin 23) (s : State) :
    CycleEnded (raiseFailure f loc s) :=
  ⟨rfl, .inr hf, rfl⟩

theorem cycleEnded_finishCycle (s : State) : CycleEnded (finishCycle s) :=
  ⟨rfl, .inl rfl, rfl⟩

/-- An outcome of a micro-op at its index: a next state, or the refusal of an answer that is too long (U7). -/
def RunsOrRefusesAnswer (o : StepOutcome) : Prop :=
  (∃ t, o = .next t) ∨ o = .refused .answerTooLong

theorem ifAnswerFits_runs (n : Nat) (s t : State) : RunsOrRefusesAnswer (ifAnswerFits n s t) := by
  unfold ifAnswerFits
  split
  · exact .inl ⟨t, rfl⟩
  · exact .inr rfl

/-- The micro-op at `upc` has no other refusal than that of an answer too long (R142). -/
theorem exec_micro_runs {s : State} {k : Fin 23} (hu : s.upc = .run k) :
    RunsOrRefusesAnswer (exec (microAt k) s) := by
  have held {op : Instr} {act : StepOutcome} (hm : microAt k = op) (h : RunsOrRefusesAnswer act) :
      RunsOrRefusesAnswer (atIndexOf op s act) := by rwa [atIndexOf_of_run hu hm]
  rcases microAt_groups k with hm | hm | (hm | hm | hm | hm) | hm | hm | hm | hm <;> rw [hm]
  case inl => exact held hm (ifAnswerFits_runs _ _ _)
  case inr.inr.inr.inl =>
    refine held hm ?_
    split
    · exact .inl ⟨_, rfl⟩
    · exact ifAnswerFits_runs _ _ _
  all_goals exact held hm (.inl ⟨_, rfl⟩)

/-- A micro-op that goes straight on in its run comes nearer to the end; the next index is not RDPT's. -/
theorem CycleComesNearer.of_next_index {s t : State} {k : Fin 23} (hu : s.upc = .run k)
    (hm : microAt k ∉ [.rdst, .disp, .done]) (ht : t.upc = .run (k + 1))
    (hb : t.inbox = s.inbox) : CycleComesNearer s t := by
  have hnext : ∀ k : Fin 23, microAt k ∉ [.rdst, .disp, .done] →
      microAt k ≠ .done ∧ ¬ (k + 1).val < 2 ∧ k + 1 ≠ 14 := by decide
  obtain ⟨hd, h2, h14⟩ := hnext k hm
  have hstep := stepsToDone_succ k hd
  have hzero : payloadSteps t (k + 1) = 0 := by simp only [payloadSteps, h2, h14, if_false]
  refine ⟨by simp [ht], hb, ?_⟩
  rw [stepsLeft_run ht, stepsLeft_run hu, hzero]
  omega

/-- RDST comes nearer to the end or ends the cycle. -/
theorem execRdst_progress {s t : State} (h : execRdst s = .next t) :
    CycleEnded t ∨ CycleComesNearer s t := by
  obtain ⟨hu, ⟨bytes, -, -, rfl⟩ | rfl⟩ := execRdst_next h
  · refine .inr ⟨by simp, by simp, ?_⟩
    rw [stepsLeft_run hu, stepsLeft_run rfl]
    simpa [payloadSteps] using stepsToDone_succ 0 (by decide)
  · exact .inl (cycleEnded_raiseFailure rfl _ _)

/-- DISP enters a run that is no longer than the bound before the branch is known. -/
theorem execDisp_progress {s t : State} (h : execDisp s = .next t) : CycleComesNearer s t := by
  obtain ⟨hu, rfl⟩ := execDisp_next h
  refine ⟨by simp, rfl, ?_⟩
  rw [stepsLeft_run hu, stepsLeft_run (enterBranch_upc _ _ _)]
  generalize branchOf s.cfg (decodeStatus s.sw) = b
  have hentry := stepsToDone_entry b
  have htwo : 2 ≤ (branchEntry b).val := by cases b <;> decide
  have hpayload : payloadSteps (enterBranch b s.sw s) (branchEntry b) ≤ chunkCount s.cfg 65535 :=
    payloadSteps_le_of_two_le _ htwo
  have hdisp : payloadSteps s 1 = chunkCount s.cfg 65535 + 1 := rfl
  omega

/-- A control write goes on or ends the cycle with its failure. -/
theorem exec_control_progress {s t : State} {k : Fin 23} (hu : s.upc = .run k)
    (hi : microAt k = .wclr ∨ microAt k = .wcpu ∨ microAt k = .wptm ∨ microAt k = .wsta)
    (h : exec (microAt k) s = .next t) : CycleEnded t ∨ CycleComesNearer s t := by
  obtain ⟨k', reg, pl, -, hu', -, hcase⟩ := exec_control_next hi h
  obtain rfl : k = k' := by simpa [hu] using hu'
  have hm : microAt k ∉ [.rdst, .disp, .done] := by rcases hi with e | e | e | e <;> simp [e]
  rcases hcase with rfl | rfl
  · refine .inr (.of_next_index hu hm ?_ (by simp))
    exact (congrArg nextUpc hu).trans (nextUpc_of_not_done (by simp_all))
  · exact .inl (cycleEnded_raiseFailure rfl _ _)

/-- RDPT moves on when the payload is complete, reads a chunk that leaves one read less, or ends the cycle. -/
theorem execRdpt_progress {s t : State} (h : execRdpt s = .next t) :
    CycleEnded t ∨ CycleComesNearer s t := by
  obtain ⟨hu, ⟨h0, rfl⟩ | ⟨h0, bytes, -, -, rfl⟩ | ⟨h0, rfl⟩⟩ := execRdpt_next h
  · exact .inr (.of_next_index hu (by decide) rfl rfl)
  · refine .inr ⟨by simp [hu], by simp, ?_⟩
    rw [stepsLeft_run hu, stepsLeft_run (k := 14) (by simpa using hu)]
    simpa [payloadSteps] using chunkCount_after_chunk h0
  · exact .inl (cycleEnded_raiseFailure rfl _ _)

/-- The micro-op at `upc` ends the cycle or comes nearer to its end. -/
theorem exec_micro_progress {s t : State} {k : Fin 23} (hu : s.upc = .run k)
    (h : exec (microAt k) s = .next t) : CycleEnded t ∨ CycleComesNearer s t := by
  rcases microAt_groups k with hm | hm | hctl | hm | hm | hm | hm
  · rw [hm] at h; exact execRdst_progress h
  · rw [hm] at h; exact .inr (execDisp_progress h)
  · exact exec_control_progress hu hctl h
  · rw [hm] at h; exact execRdpt_progress h
  · obtain rfl := microAt_publ.1 hm
    obtain ⟨-, rfl⟩ := execPubl_next h
    exact .inr (.of_next_index hu (by decide) rfl rfl)
  · rw [hm] at h
    obtain ⟨-, -, -, rfl⟩ := execLclr_next h
    refine .inr (.of_next_index hu (by simp [hm]) ?_ rfl)
    rw [hu, nextUpc_of_not_done (by simp [hm])]
  · rw [hm] at h
    obtain ⟨-, -, -, rfl⟩ := execDone_next h
    exact .inl (cycleEnded_finishCycle s)

/-- From a cycle in flight with nothing requested, at most `stepsLeft` steps lead to its end or to the refusal
of an answer too long: by induction on the bound, which every step lowers. -/
theorem cycle_ends_within_stepsLeft {m : Nat} {s : State} (hm : stepsLeft s ≤ m) (hu : s.upc ≠ .idle)
    (hb : s.inbox = []) : ∃ n, n ≤ m ∧
      ((∃ t, core.run n s = .next t ∧ CycleEnded t) ∨ core.run n s = .refused .answerTooLong) := by
  induction m generalizing s with
  | zero => exact absurd (stepsLeft_pos hu) (by omega)
  | succ m ih =>
    obtain ⟨k, hk⟩ := exists_run_of_ne_idle hu
    have hstep : core.step s = exec (microAt k) s := step_of_run hk hb
    rcases exec_micro_runs hk with ⟨t, ht⟩ | hr
    · rcases exec_micro_progress hk ht with hend | ⟨hu', hb', hlt⟩
      · exact ⟨1, by omega, .inl ⟨t, run_succ_next core 0 (hstep.trans ht), hend⟩⟩
      · obtain ⟨n, hn, h⟩ := ih (s := t) (by omega) hu' (hb'.trans hb)
        refine ⟨n + 1, by omega, ?_⟩
        rwa [run_succ_next core n (hstep.trans ht)]
    · exact ⟨1, by omega, .inr (run_succ_refused core 0 (hstep.trans hr))⟩

/-- Settles O52: the bound of `stepsLeft` is at most `ceil(65535 / MAX_XFER) + 7`. -/
theorem everyCycleEnds : Obligations.EveryCycleEnds := by
  intro s _ hu hb
  obtain ⟨n, hn, hend⟩ := cycle_ends_within_stepsLeft (stepsLeft_le s) hu hb
  exact ⟨n, hn.trans (Nat.le_succ _), hend⟩

end Sys2Proof.Machine

namespace Sys2Proof.Machine

/-! ### Runs of the machine, and the payload read as one run (R101, R181) -/

/-- In `n` steps the machine goes from `s` to `t`, whatever it does from there. -/
def RunsTo (n : Nat) (s t : State) : Prop := ∀ m, core.run (n + m) s = core.run m t

theorem RunsTo.refl (s : State) : RunsTo 0 s s := fun m => by rw [Nat.zero_add]

theorem RunsTo.of_step {s t : State} (h : step s = .next t) : RunsTo 1 s t := fun m =>
  (congrArg (core.run · s) (Nat.add_comm 1 m)).trans (run_succ_next core m h)

theorem RunsTo.trans {m n : Nat} {s t u : State} (h : RunsTo m s t) (h' : RunsTo n t u) :
    RunsTo (m + n) s u := fun k =>
  (congrArg (core.run · s) (Nat.add_assoc m n k)).trans ((h (n + k)).trans (h' k))

theorem RunsTo.run_eq {n : Nat} {s t : State} (h : RunsTo n s t) : core.run n s = .next t := h 0

/-- With nothing requested, one step of a cycle in flight runs the micro-op at `upc`. -/
theorem RunsTo.of_exec {s t : State} {k : Fin 23} (hu : s.upc = .run k) (hb : s.inbox = [])
    (h : exec (microAt k) s = .next t) : RunsTo 1 s t :=
  .of_step ((step_of_run hu hb).trans h)

/-- The read lines of some chunks, oldest first, as the trace records them (R104). -/
def chunkLines (cfg : Config) (chunks : List (List Byte)) : List TraceLine :=
  chunks.map fun c => .rd cfg.devAddr cfg.regPointData c.length (.ok c)

/-- The state after some chunks of the payload have been read in full, with `more` answers left. -/
def afterChunks (chunks : List (List Byte)) (more : List BusAnswer) (s : State) : State :=
  { s with
    answers := more
    scratch := storeChunk s.scratch s.off.toNat chunks.flatten
    off := s.off + BitVec.ofNat 16 chunks.flatten.length
    rem := s.rem - BitVec.ofNat 16 chunks.flatten.length
    trace := (chunkLines s.cfg chunks).reverse ++ s.trace }

/-- RDPT on a queued chunk of the size it asks for. -/
theorem exec_rdpt_of_chunk {s : State} {bytes : List Byte} {more : List BusAnswer}
    (hu : s.upc = .run 14) (h0 : s.rem ≠ 0) (ha : s.answers = .ok bytes :: more)
    (hl : bytes.length = chunkSize s.cfg s.rem) :
    exec .rdpt s = .next (afterChunks [bytes] more s) := by
  have htake : takeAnswer (chunkSize s.cfg s.rem) s = (.ok bytes, { s with answers := more }) := by
    simp [takeAnswer, ha]
  have hfit : ∀ b, (takeAnswer (chunkSize s.cfg s.rem) s).1 = .ok b →
      b.length ≤ chunkSize s.cfg s.rem := by
    rw [htake]; rintro _ ⟨⟩; exact hl.le
  calc exec .rdpt s
      = if s.rem = 0 then _ else ifAnswerFits (chunkSize s.cfg s.rem) s (readChunk s) :=
        atIndexOf_of_run hu rfl _
    _ = ifAnswerFits (chunkSize s.cfg s.rem) s (readChunk s) := if_neg h0
    _ = .next (readChunk s) := ifAnswerFits_of_le hfit
    _ = .next (afterChunks [bytes] more s) := by
      rw [readChunk_ok (congrArg Prod.fst htake) hl.ge, htake, ← hl]
      simp [afterChunks, chunkLines]

/-- The chunks after the first are read as those of the state after the first. -/
theorem afterChunks_cons {c : List Byte} {cs : List (List Byte)} {s : State}
    (h : s.off.toNat + c.length < 2 ^ 16) (between more : List BusAnswer) :
    afterChunks cs more (afterChunks [c] between s) = afterChunks (c :: cs) more s := by
  have hoff : (s.off + BitVec.ofNat 16 c.length).toNat = s.off.toNat + c.length := by
    rw [BitVec.toNat_add, BitVec.toNat_ofNat]; omega
  simp [afterChunks, chunkLines, hoff, storeChunk_append, BitVec.ofNat_add, BitVec.add_assoc,
    BitVec.sub_sub]

/-- RDPT reads the payload in one step per chunk, however many it has (R181): by induction on the chunks, each
the first of the bytes left. -/
theorem runsTo_afterChunks {chunks : List (List Byte)} {more : List BusAnswer} {s : State}
    (hu : s.upc = .run 14) (hb : s.inbox = [])
    (hsizes : chunks.map List.length = chunkSizes s.cfg s.rem.toNat)
    (hfits : s.off.toNat + s.rem.toNat < 2 ^ 16)
    (ha : s.answers = chunks.map .ok ++ more) :
    RunsTo chunks.length s (afterChunks chunks more s) := by
  induction chunks generalizing s with
  | nil =>
    have hs : afterChunks [] more s = s := by
      cases s; simp_all [afterChunks, storeChunk, chunkLines]
    rw [hs]
    exact .refl s
  | cons c cs ih =>
    obtain ⟨hne, hmin, hcs⟩ := chunkSizes_eq_cons hsizes.symm
    have hc : c.length = chunkSize s.cfg s.rem := hmin
    have h0 : s.rem ≠ 0 := by rintro h; simp [h] at hne
    have hfirst : RunsTo 1 s (afterChunks [c] (cs.map .ok ++ more) s) :=
      .of_exec hu hb (exec_rdpt_of_chunk hu h0 ha hc)
    have hrem : (s.rem - BitVec.ofNat 16 c.length).toNat = s.rem.toNat - c.length := by
      rw [hc, rem_sub_chunk]
    have hoff : (s.off + BitVec.ofNat 16 c.length).toNat = s.off.toNat + c.length := by
      rw [hc, off_add_chunk (by omega)]
    have hrest := ih (s := afterChunks [c] (cs.map .ok ++ more) s) hu hb
      (by simpa [afterChunks, hrem] using hcs) (by simp [afterChunks, hrem, hoff]; omega) rfl
    rw [afterChunks_cons (by omega)] at hrest
    rw [List.length_cons, Nat.add_comm]
    exact hfirst.trans hrest

/-- After the whole payload, read from offset 0, `REM` is 0, `OFF` is its length, and the buffer holds it as far as
it fits over the old bytes (R181, R188). -/
theorem afterChunks_whole {chunks : List (List Byte)} {more : List BusAnswer} {s : State}
    (h0 : s.off = 0) (hlen : chunks.flatten.length = s.rem.toNat) :
    afterChunks chunks more s = { s with
      answers := more
      scratch := chunks.flatten.take s.scratch.length ++ s.scratch.drop s.rem.toNat
      off := s.rem
      rem := 0
      trace := (chunkLines s.cfg chunks).reverse ++ s.trace } := by
  have hrem : BitVec.ofNat 16 chunks.flatten.length = s.rem := by
    rw [hlen, BitVec.ofNat_toNat, BitVec.setWidth_eq]
  have hoff : (0 : BitVec 16).toNat = 0 := rfl
  unfold afterChunks
  rw [hrem, h0, hoff, storeChunk_zero, hlen, BitVec.sub_self]
  simp

/-! ### The other steps of a branch-4 cycle (R140, R144, R145, R153) -/

/-- A queued answer is the one a transaction gets, whatever it asks for (log 9). -/
theorem takeAnswer_of_queued {s : State} {a : BusAnswer} {rest : List BusAnswer}
    (ha : s.answers = a :: rest) (n : Nat) : takeAnswer n s = (a, { s with answers := rest }) := by
  simp [takeAnswer, ha]

/-- A requested POLL of an idle machine with the latch set starts a cycle (R140). -/
theorem runsTo_poll {s : State} (hu : s.upc = .idle) (hl : s.latch = true) (hb : s.inbox = [.poll]) :
    RunsTo 1 s (startCycle (consume s)) :=
  .of_step (by simp [step_eq, stepInstr, hb, exec, execPoll, hu, hl])

/-- RDST with a queued answer of four bytes (R144). -/
theorem runsTo_rdst {s : State} {b0 b1 b2 b3 : Byte} {more : List BusAnswer} (hu : s.upc = .run 0)
    (hb : s.inbox = []) (ha : s.answers = .ok [b0, b1, b2, b3] :: more) :
    RunsTo 1 s { s with
      sw := b3 ++ b2 ++ b1 ++ b0
      upc := .run 1
      answers := more
      trace := .rd s.cfg.devAddr s.cfg.regStatus 4 (.ok [b0, b1, b2, b3]) :: s.trace } := by
  have htake := takeAnswer_of_queued ha 4
  have hrdst := exec_rdst_of_ok hu (congrArg Prod.fst htake)
  rw [htake] at hrdst
  exact .of_exec hu hb hrdst

/-- DISP (R145). -/
theorem runsTo_disp {s : State} (hu : s.upc = .run 1) (hb : s.inbox = []) :
    RunsTo 1 s (enterBranch (branchOf s.cfg (decodeStatus s.sw)) s.sw s) :=
  .of_exec hu hb (atIndexOf_of_run hu rfl _)

/-- RDPT with the payload complete makes no read (R182). -/
theorem runsTo_rdpt_complete {s : State} (hu : s.upc = .run 14) (h0 : s.rem = 0) (hb : s.inbox = []) :
    RunsTo 1 s { s with upc := .run 15 } :=
  .of_exec hu hb ((atIndexOf_of_run hu rfl _).trans (if_pos h0))

/-- PUBL (R189). -/
theorem runsTo_publ {s : State} (hu : s.upc = .run 15) (hb : s.inbox = []) :
    RunsTo 1 s { s with
      tb := assembleReport s.cfg s.sw s.scratch
      upc := .run 16
      trace := .pub (snapshotOf (assembleReport s.cfg s.sw s.scratch)) :: s.trace } :=
  .of_exec hu hb (atIndexOf_of_run hu rfl _)

/-- The clear-interrupt write of branch 4, with a queued success (R147). -/
theorem runsTo_wclr {s : State} {d : List Byte} {rest : List BusAnswer} (hu : s.upc = .run 16)
    (hb : s.inbox = []) (ha : s.answers = .ok d :: rest) :
    RunsTo 1 s { s with
      upc := .run 17
      answers := rest
      trace := .settle s.cfg.tSettle ::
        .wr s.cfg.devAddr s.cfg.regClearInt s.cfg.plClearInt.p0 s.cfg.plClearInt.p1 true :: s.trace } := by
  have htake := takeAnswer_of_queued ha 0
  have hwrite := controlWrite_ok_at (reg := s.cfg.regClearInt) (pl := s.cfg.plClearInt) hu (by decide)
    (by simp [htake])
  rw [htake] at hwrite
  exact .of_exec hu hb ((atIndexOf_of_run hu rfl _).trans (congrArg _ hwrite))

/-- LCLR of branch 4 (R157). -/
theorem runsTo_lclr {s : State} (hu : s.upc = .run 17) (hb : s.inbox = []) :
    RunsTo 1 s { s with latch := false, upc := .run 18 } := by
  have hnext : nextUpc s.upc = .run 18 := by rw [hu]; rfl
  rw [← hnext]
  exact .of_exec hu hb (atIndexOf_of_run hu rfl _)

/-- DONE of branch 4 (R158). -/
theorem runsTo_done {s : State} (hu : s.upc = .run 18) (hb : s.inbox = []) :
    RunsTo 1 s (finishCycle s) :=
  .of_exec hu hb (atIndexOf_of_run hu rfl _)

/-- The state at the entry of branch 4, from an idle state `s` whose POLL has read the status `b0 b1 b2 b3`. -/
def payloadEntry (b0 b1 b2 b3 : Byte) (more : List BusAnswer) (s : State) : State :=
  { s with
    upc := .run 14
    sw := b3 ++ b2 ++ b1 ++ b0
    rem := (decodeStatus (b3 ++ b2 ++ b1 ++ b0)).pendingLength
    off := 0
    res := { code := .running, branch := some .b4, loc := 0 }
    inbox := []
    answers := more
    trace := .rd s.cfg.devAddr s.cfg.regStatus 4 (.ok [b0, b1, b2, b3]) :: .poll :: s.trace }

/-- From POLL to the entry of branch 4, when the status read selects it. -/
theorem runsTo_payload_entry {s : State} {b0 b1 b2 b3 : Byte} {more : List BusAnswer}
    (hu : s.upc = .idle) (hl : s.latch = true) (hb : s.inbox = [.poll])
    (ha : s.answers = .ok [b0, b1, b2, b3] :: more)
    (h4 : branchOf s.cfg (decodeStatus (b3 ++ b2 ++ b1 ++ b0)) = .b4) :
    RunsTo 3 s (payloadEntry b0 b1 b2 b3 more s) := by
  have hb' : (consume s).inbox = [] := by simp [hb]
  have hrun := ((runsTo_poll hu hl hb).trans (runsTo_rdst rfl hb' ha)).trans (runsTo_disp rfl hb')
  simpa [payloadEntry, enterBranch, startCycle, consume, h4, hb, branchEntry] using hrun

/-- From RDPT with the payload complete to POLL's return: publish, clear-interrupt, LCLR, DONE (R153). -/
theorem runsTo_published {s : State} {d : List Byte} {rest : List BusAnswer}
    (hu : s.upc = .run 14) (h0 : s.rem = 0) (hb : s.inbox = []) (ha : s.answers = .ok d :: rest) :
    RunsTo 5 s { s with
      latch := false
      tb := assembleReport s.cfg s.sw s.scratch
      upc := .idle
      res := { s.res with code := .ok }
      answers := rest
      trace := .pollDone { s.res with code := .ok } :: .settle s.cfg.tSettle ::
        .wr s.cfg.devAddr s.cfg.regClearInt s.cfg.plClearInt.p0 s.cfg.plClearInt.p1 true ::
        .pub (snapshotOf (assembleReport s.cfg s.sw s.scratch)) :: s.trace } :=
  ((((runsTo_rdpt_complete hu h0 hb).trans (runsTo_publ rfl hb)).trans (runsTo_wclr rfl hb ha)).trans
    (runsTo_lclr rfl hb)).trans (runsTo_done rfl hb)

/-! ### The report of a payload that has been read as a whole (R186, R189, R190) -/

/-- What lies inside a first part of a list does not depend on the rest. -/
theorem take_drop_append_of_le {α : Type} {p q : List α} {i n : Nat} (h : i + n ≤ p.length) :
    ((p ++ q).drop i).take n = (p.drop i).take n := by
  rw [List.drop_append_of_le_length (by omega), List.take_append_of_le_length (by simp; omega)]

/-- A counted record in the buffer is that record of the payload. -/
theorem recordBytes_of_payload {cfg : Config} {st : StatusWord} {payload stale : List Byte} {i : Nat}
    (hlen : payload.length = st.pendingLength.toNat) (hi : i < recordCount cfg st) :
    recordBytes cfg (payload.take cfg.scratchLen ++ stale) i =
      (payload.drop (cfg.layout.hdrLen + i * cfg.layout.recLen)).take cfg.layout.recLen := by
  have hend := record_end_le hi
  rw [Nat.succ_mul] at hend
  unfold recordBytes
  rw [take_drop_append_of_le (by simp; omega), List.drop_take, List.take_take, Nat.min_eq_left (by omega)]

/-- The prefix given to `LAYOUT.meta` is the payload as far as it fits. -/
theorem payloadPrefix_of_payload {cfg : Config} {st : StatusWord} {payload stale : List Byte}
    (hlen : payload.length = st.pendingLength.toNat) :
    payloadPrefix cfg st (payload.take cfg.scratchLen ++ stale) = payload.take cfg.scratchLen := by
  unfold payloadPrefix
  rw [List.take_append_of_le_length (by simp; omega), List.take_take, ← hlen,
    List.take_eq_take_iff]
  omega

/-- The number of records, with the test of `DevCount` as a proposition (R186, R187). -/
theorem recordCount_eq (cfg : Config) (st : StatusWord) : recordCount cfg st =
    min (if st.ptExist = true ∧ cfg.layout.hdrLen ≤ st.pendingLength.toNat then
      (st.pendingLength.toNat - cfg.layout.hdrLen) / cfg.layout.recLen else 0) cfg.maxPoints := by
  simp [recordCount, devCount]

/-- The slots of a report: the counted ones are decoded from their records, and the others are `TP0`. -/
theorem assemblePoints_getElem? {cfg : Config} {st : StatusWord} {scratch : List Byte} {i : Nat}
    (hi : i < cfg.maxPoints) : (assemblePoints cfg st scratch)[i]? =
      some (if i < recordCount cfg st then layoutPoint cfg.layout i (recordBytes cfg scratch i)
        else TouchPoint.zero) := by
  simp [assemblePoints, hi]

/-- Settles O53: the entry, the chunks and the publishing are three runs, one after the other; the report assembled
from the buffer is that of the payload, as a counted record lies inside both. -/
theorem payloadCyclePublishesAndRunsToOk : Obligations.PayloadCyclePublishesAndRunsToOk := by
  intro s b0 b1 b2 b3 chunks d rest hu hl hb hscratch sw st l len payload count n status ok4 h4
    hsizes ha
  have hlen : payload.length = len := by
    rw [List.length_flatten, hsizes, chunkSizes_sum]
  have hcount : recordCount s.cfg st = n := recordCount_eq s.cfg st
  refine ⟨assembleReport s.cfg sw (payload.take s.cfg.scratchLen ++ s.scratch.drop len), ?_,
    hcount, assembleReport_points_length _ _ _, fun i hi => ?_, fun i hi hmax => ?_, ?_⟩
  · let entry := payloadEntry b0 b1 b2 b3 (chunks.map .ok ++ .ok d :: rest) s
    have hfits : entry.off.toNat + entry.rem.toNat < 2 ^ 16 :=
      (Nat.zero_add _).trans_lt st.pendingLength.isLt
    have hentry : RunsTo 3 s entry := runsTo_payload_entry hu hl hb ha h4
    have hchunks := runsTo_afterChunks (s := entry) rfl rfl hsizes hfits rfl
    rw [afterChunks_whole rfl hlen] at hchunks
    have hrun := ((hentry.trans hchunks).trans (runsTo_published rfl rfl rfl rfl)).run_eq
    rw [show 3 + chunks.length + 5 = chunks.length + 8 by omega] at hrun
    rw [← hscratch, ← hcount, hu]
    exact hrun
  · rw [← hcount] at hi
    have hmax := recordCount_le s.cfg st
    exact (assemblePoints_getElem? (by omega)).trans
      (by rw [if_pos hi, recordBytes_of_payload hlen hi])
  · exact (assemblePoints_getElem? hmax).trans (by rw [if_neg (hcount.trans_le hi).not_gt])
  · exact congrArg (layoutMetadata l st) (payloadPrefix_of_payload hlen)

end Sys2Proof.Machine

namespace Sys2Proof.Machine

/-! ### A failed payload read (R181, R191) -/

/-- RDPT on an answer that fails or is shorter than the chunk, queued or free. -/
theorem exec_rdpt_of_short {s : State} (hu : s.upc = .run 14) (h0 : s.rem ≠ 0)
    (ha : ∀ bytes, (takeAnswer (chunkSize s.cfg s.rem) s).1 = .ok bytes →
      bytes.length < chunkSize s.cfg s.rem) :
    exec .rdpt s = .next (raiseFailure .failData 14 { (takeAnswer (chunkSize s.cfg s.rem) s).2 with
      trace := .rd s.cfg.devAddr s.cfg.regPointData (chunkSize s.cfg s.rem)
        (takeAnswer (chunkSize s.cfg s.rem) s).1 :: s.trace }) := by
  calc exec .rdpt s
      = if s.rem = 0 then _ else ifAnswerFits (chunkSize s.cfg s.rem) s (readChunk s) :=
        atIndexOf_of_run hu rfl _
    _ = ifAnswerFits (chunkSize s.cfg s.rem) s (readChunk s) := if_neg h0
    _ = .next (readChunk s) := ifAnswerFits_of_le fun bytes hb => (ha bytes hb).le
    _ = _ := congrArg _ (readChunk_fail ha)

/-- Settles O39: the failure changes `RES`, `upc` and the trace only; the latch it leaves is set, as index 14
stands before branch 4's LCLR, and the buffer it leaves is the one TAKE reads. -/
theorem failedAssemblyKeepsThePublishedReport : Obligations.FailedAssemblyKeepsThePublishedReport := by
  intro s hI hu h0 ha
  have hlatch : s.latch = true := hI.latch 14 hu rfl
  refine ⟨_, exec_rdpt_of_short hu h0 ha, ?res, rfl, (takeAnswer_latch _ _).trans hlatch,
    takeAnswer_tb _ _, rfl, takeAnswer_scratch _ _, takeAnswer_off _ _, takeAnswer_rem _ _, _, rfl, ?take⟩
  case res => simp
  case take => simp [snapshotOf]

/-! ### The number of records published (R187) -/

/-- PUBL at its index (R189). -/
theorem exec_publ_at {s : State} (hu : s.upc = .run 15) :
    exec .publ s = .next (emit (.pub (snapshotOf (assembleReport s.cfg s.sw s.scratch)))
      { s with tb := assembleReport s.cfg s.sw s.scratch, upc := .run 16 }) :=
  atIndexOf_of_run hu rfl _

/-- Settles O32: the published count is `recordCount`, which `MAX_POINTS` bounds, so that every record below it
has a slot. -/
theorem publishedCountIsClipped : Obligations.PublishedCountIsClipped := by
  intro s hu
  have hmax : recordCount s.cfg (decodeStatus s.sw) ≤ s.cfg.maxPoints := recordCount_le _ _
  refine ⟨_, exec_publ_at hu, rfl, hmax, fun i hi => ?_⟩
  have hcount : i < recordCount s.cfg (decodeStatus s.sw) := hi
  exact (assemblePoints_getElem? (hcount.trans_le hmax)).trans (by rw [if_pos hcount])

end Sys2Proof.Machine

namespace Sys2Proof.Machine

/-! ### IRQ, TAKE and the report TAKE hands out (R210, R214, R215, R216) -/

/-- Settles O18: IRQ is ungated, so its meaning `execIrq` is this next state in every state. -/
theorem irqSetsOnlyTheLatch : Obligations.IrqSetsOnlyTheLatch := fun _ => rfl

/-- TAKE, in every state (R214). -/
theorem exec_take (s : State) :
    exec .take s = .next { s with
      tb := { s.tb with touchNum := 0 }, trace := .take (snapshotOf s.tb) :: s.trace } := rfl

/-- Settles O20: the snapshot is `snapshotOf`, whose fields are the count, the counted slots and the metadata. -/
theorem takeSnapshotsAndClearsTheCount : Obligations.TakeSnapshotsAndClearsTheCount := fun s =>
  calc exec .take s
      = .next { s with
          tb := { s.tb with touchNum := 0 }, trace := .take (snapshotOf s.tb) :: s.trace } := exec_take s
    _ = _ := by rw [snapshotOf]

/-- TAKE hands out the snapshot of the buffer. -/
theorem take_trace {s t : State} (h : exec .take s = .next t) :
    t.trace = .take (snapshotOf s.tb) :: s.trace := by
  rw [exec_take] at h
  cases h
  rfl

/-- After TAKE the buffer is empty. -/
theorem take_touchNum {s t : State} (h : exec .take s = .next t) : t.tb.touchNum = 0 := by
  rw [exec_take] at h
  cases h
  rfl

/-- The snapshot of an empty buffer has no points, whatever the slots still hold (R215). -/
theorem snapshotOf_of_empty {r : TouchReport} (h : r.touchNum = 0) :
    snapshotOf r = { touchNum := 0, points := [], metadata := r.metadata } := by
  rw [snapshotOf, h, List.take_zero]

/-- TAKE on an empty buffer hands out the empty report, with the metadata as stored (D19). -/
theorem take_trace_of_empty {s t : State} (h0 : s.tb.touchNum = 0) (h : exec .take s = .next t) :
    t.trace = .take { touchNum := 0, points := [], metadata := s.tb.metadata } :: s.trace := by
  rw [take_trace h, snapshotOf_of_empty h0]

/-- PUBL's line in the trace is the snapshot of the buffer it leaves (R189). -/
theorem publ_trace {s t : State} (h : exec .publ s = .next t) :
    t.trace = .pub (snapshotOf t.tb) :: s.trace := by
  obtain ⟨-, rfl⟩ := execPubl_next h
  rfl

/-- Settles O22: a TAKE leaves an empty buffer, and the TAKE after it hands out the empty report; PUBL and the TAKE
after it show one snapshot, that of the buffer between them. -/
theorem takeIsIdempotent : Obligations.TakeIsIdempotent := by
  refine ⟨?nothingPending, ?takeTake, ?publTakeTake⟩
  case nothingPending => exact fun _ _ => take_trace_of_empty
  case takeTake => exact fun _ _ _ hst htu => take_trace_of_empty (take_touchNum hst) htu
  case publTakeTake =>
    intro s t u v hst htu huv
    have hempty : u.tb.touchNum = 0 := take_touchNum htu
    exact ⟨snapshotOf t.tb, publ_trace hst, take_trace htu, rfl, hempty, take_trace_of_empty hempty huv⟩

end Sys2Proof.Machine

namespace Sys2Proof.Machine

/-! ### What a failure changes (R160, R248) -/

/-- An instruction that brings a failure into `RES` raised it, after one bus transaction: it is a reading or
writing micro-op at its own index, and the code is its own. -/
theorem exec_raises_failure {i : Instr} {s t : State} (hs : isFailure s.res.code = false)
    (h : exec i s = .next t) (ht : isFailure t.res.code = true) :
    ∃ f k n lines, s.upc = .run k ∧
      t = raiseFailure f k { (takeAnswer n s).2 with trace := lines } ∧
      ((i = .rdst ∧ f = .failStatus) ∨ (i = .rdpt ∧ f = .failData) ∨
       ((i = .wclr ∨ i = .wcpu ∨ i = .wptm ∨ i = .wsta) ∧ f = .failWrite)) := by
  have keeps_code {u : State} (hu : u.res.code = s.res.code) : ¬ isFailure u.res.code = true := by
    simp [hu, hs]
  cases i with
  | rdst =>
    obtain ⟨hu, ⟨_, -, -, rfl⟩ | rfl⟩ := execRdst_next h
    · exact absurd ht (keeps_code (by simp))
    · exact ⟨_, _, _, _, hu, rfl, .inl ⟨rfl, rfl⟩⟩
  | rdpt =>
    obtain ⟨hu, ⟨-, rfl⟩ | ⟨-, _, -, -, rfl⟩ | ⟨-, rfl⟩⟩ := execRdpt_next h
    · exact absurd ht (keeps_code rfl)
    · exact absurd ht (keeps_code (by simp))
    · exact ⟨_, _, _, _, hu, rfl, .inr (.inl ⟨rfl, rfl⟩)⟩
  | wclr | wcpu | wptm | wsta =>
    obtain ⟨k, reg, pl, -, hu, -, rfl | rfl⟩ := exec_control_next (by simp) h
    · exact absurd ht (keeps_code (by simp))
    · exact ⟨_, _, _, _, hu, rfl, .inr (.inr ⟨by simp, rfl⟩)⟩
  | reset => cases h; cases ht
  | take | irq | query | decode => cases h; exact absurd ht (keeps_code rfl)
  | poll => obtain ⟨-, ⟨-, rfl⟩ | ⟨-, rfl⟩⟩ := execPoll_next h <;> cases ht
  | branch1 sw | branch2 sw | branch3 sw | branch4Pt sw | branch4Ges sw | branch5 sw | branch6 sw =>
    obtain ⟨-, -, _, rfl⟩ := exec_selector_next (sw := sw) (by simp) h
    exact absurd ht (keeps_code rfl)
  | disp => obtain ⟨-, rfl⟩ := execDisp_next h; exact absurd ht (keeps_code rfl)
  | publ => obtain ⟨-, rfl⟩ := execPubl_next h; exact absurd ht (keeps_code rfl)
  | lclr => obtain ⟨-, -, -, rfl⟩ := execLclr_next h; exact absurd ht (keeps_code rfl)
  | done => obtain ⟨-, -, -, rfl⟩ := execDone_next h; cases ht
  | cmdRdStatus => obtain ⟨-, rfl⟩ := execCmdRdStatus_next h; exact absurd ht (keeps_code (by simp))
  | cmdRdPoints => obtain ⟨-, -, -, rfl⟩ := execCmdRdPoints_next h; exact absurd ht (keeps_code (by simp))
  | cmdClearInt | cmdStartCpu | cmdPointMode | cmdStartSampling =>
    obtain ⟨-, -, -, rfl⟩ := execCmdWrite_next h
    exact absurd ht (keeps_code (by simp))

/-- Settles O38: the failure was raised, and neither raising it nor the bus transaction before it changes
another register. -/
theorem failureChangesOnlyResAndUpc : Obligations.FailureChangesOnlyResAndUpc := by
  intro s t i k hu hs h ht
  obtain ⟨f, k', n, lines, hu', rfl, hcause⟩ := exec_raises_failure hs h ht
  obtain rfl : k = k' := by simpa [hu] using hu'
  simpa using hcause

/-! ### The POLL after a failure (R140, R251) -/

/-- POLL of an idle machine with the latch set starts a cycle. -/
theorem exec_poll_of_latched {s : State} (hu : s.upc = .idle) (hl : s.latch = true) :
    exec .poll s = .next (startCycle s) := by
  simp [exec, execPoll, hu, hl]

/-- Settles O40: a failure in `RES` is not `RUNNING`, so no cycle is in flight, and the latch it was raised under
is still set. -/
theorem nextPollRetriesWithoutANewEdge : Obligations.NextPollRetriesWithoutANewEdge := by
  intro s hI hf
  have hcode : s.res.code ≠ .running := fun hr => by simp [hr, isFailure] at hf
  have hu : s.upc = .idle := by_contra fun hne => hcode (hI.running.1 hne)
  have hl : s.latch = true := hI.failed hf
  exact ⟨hu, hl, exec_poll_of_latched hu hl⟩

/-! ### What the sequencer and the assembler read (R164, R254) -/

/-- If `o` completes then so does `o'`, in a state that an acquisition cycle does not tell from that of `o`. -/
def CompletesAlike (o o' : StepOutcome) : Prop :=
  ∀ t, o = .next t → ∃ t', o' = .next t' ∧ SameAcquisition t t'

section
variable {s s' : State}

theorem SameAcquisition.completesAlike (h : SameAcquisition s s') :
    CompletesAlike (.next s) (.next s') := by
  rintro _ ⟨⟩
  exact ⟨s', rfl, h⟩

/-- The trace is not read. -/
theorem SameAcquisition.of_traces (h : SameAcquisition s s') (lines lines' : List TraceLine) :
    SameAcquisition { s with trace := lines } { s' with trace := lines' } :=
  { h with }

/-- The environment's next answer is the same. -/
theorem SameAcquisition.answer (h : SameAcquisition s s') (n : Nat) :
    (takeAnswer n s).1 = (takeAnswer n s').1 := by
  unfold takeAnswer
  rw [h.answers, h.fresh]
  split <;> rfl

/-- Taking that answer leaves the same. -/
theorem SameAcquisition.after_answer (h : SameAcquisition s s') (n : Nat) :
    SameAcquisition (takeAnswer n s).2 (takeAnswer n s').2 := by
  unfold takeAnswer
  rw [← h.answers]
  split
  · exact { h with answers := rfl }
  · exact { h with answers := rfl, fresh := congrArg (· + 1) h.fresh }

theorem SameAcquisition.after_raiseFailure (h : SameAcquisition s s') (f : ResCode) (loc : Fin 23) :
    SameAcquisition (raiseFailure f loc s) (raiseFailure f loc s') :=
  { h with upc := rfl, res := by simp [h.res] }

theorem SameAcquisition.after_enterBranch (h : SameAcquisition s s') (b : Branch) (sw : BitVec 32) :
    SameAcquisition (enterBranch b sw s) (enterBranch b sw s') :=
  { h with upc := rfl, rem := by simp [h.rem], off := by simp [h.off], res := by simp [h.res] }

theorem SameAcquisition.after_finishCycle (h : SameAcquisition s s') :
    SameAcquisition (finishCycle s) (finishCycle s') :=
  { h with upc := rfl, res := by simp [h.res] }

/-- The write's own answer decides between the two outcomes. -/
theorem SameAcquisition.after_controlWrite (h : SameAcquisition s s') (reg : BitVec 16) (pl : Payload) :
    SameAcquisition (controlWrite reg pl s) (controlWrite reg pl s') := by
  have ha := h.answer 0
  have hafter := h.after_answer 0
  by_cases hc : (takeAnswer 0 s).1 = .fail
  · rw [controlWrite_fail hc, controlWrite_fail (ha ▸ hc), h.upc]
    exact (hafter.of_traces _ _).after_raiseFailure _ _
  · rw [controlWrite_ok hc, controlWrite_ok (ha ▸ hc)]
    exact { hafter with upc := congrArg nextUpc h.upc }

theorem SameAcquisition.after_readStatus (h : SameAcquisition s s') :
    SameAcquisition (readStatus s) (readStatus s') := by
  have ha := h.answer 4
  have hafter := h.after_answer 4
  by_cases hc : ∀ bytes, (takeAnswer 4 s).1 = .ok bytes → bytes.length < 4
  · rw [readStatus_fail hc, readStatus_fail (ha ▸ hc)]
    exact (hafter.of_traces _ _).after_raiseFailure _ _
  · push Not at hc
    obtain ⟨bytes, hb, hl⟩ := hc
    rw [readStatus_ok hb hl, readStatus_ok (ha ▸ hb) hl]
    exact { hafter with sw := rfl, upc := rfl }

theorem SameAcquisition.chunkSize_eq (h : SameAcquisition s s') :
    chunkSize s.cfg s.rem = chunkSize s'.cfg s'.rem := by
  rw [h.cfg, h.rem]

theorem SameAcquisition.after_readChunk (h : SameAcquisition s s') :
    SameAcquisition (readChunk s) (readChunk s') := by
  have hsize := h.chunkSize_eq
  have ha := h.answer (chunkSize s.cfg s.rem)
  have hafter := h.after_answer (chunkSize s.cfg s.rem)
  by_cases hc : ∀ bytes, (takeAnswer (chunkSize s.cfg s.rem) s).1 = .ok bytes →
      bytes.length < chunkSize s.cfg s.rem
  · rw [readChunk_fail hc, readChunk_fail (by rwa [← hsize, ← ha]), ← hsize]
    exact (hafter.of_traces _ _).after_raiseFailure _ _
  · push Not at hc
    obtain ⟨bytes, hb, hl⟩ := hc
    rw [readChunk_ok hb hl, readChunk_ok (by rwa [← hsize, ← ha]) (hsize ▸ hl), ← hsize]
    exact { hafter with
      scratch := by rw [h.scratch, h.off]
      off := by rw [h.off]
      rem := by rw [h.rem] }

/-- A micro-op's gate reads `upc` only. -/
theorem SameAcquisition.completesAlike_atIndexOf (h : SameAcquisition s s') {op : Instr}
    {act act' : StepOutcome} (hact : CompletesAlike act act') :
    CompletesAlike (atIndexOf op s act) (atIndexOf op s' act') := by
  intro t ht
  obtain ⟨hk, ht⟩ := atIndexOf_next ht
  rw [atIndexOf_of_holds (h.upc ▸ hk)]
  exact hact t ht

/-- A read's gate reads the environment's answer only. -/
theorem SameAcquisition.completesAlike_ifAnswerFits (h : SameAcquisition s s') {n : Nat}
    {u u' : State} (hu : SameAcquisition u u') :
    CompletesAlike (ifAnswerFits n s u) (ifAnswerFits n s' u') := by
  intro t ht
  obtain ⟨hfit, rfl⟩ := ifAnswerFits_next ht
  exact ⟨u', ifAnswerFits_of_le (h.answer n ▸ (answerFits_iff n s).1 hfit), hu⟩

/-- Each of the ten micro-ops does the same in two states that a cycle does not tell apart. RDPT reads `REM` before
its chunk, to know whether the payload is complete (R182). -/
theorem SameAcquisition.exec_micro (h : SameAcquisition s s') {i : Instr}
    (hi : i ∈ [.rdst, .disp, .wclr, .wcpu, .wptm, .wsta, .rdpt, .publ, .lclr, .done]) :
    CompletesAlike (exec i s) (exec i s') := by
  cases i with
  | rdst => exact h.completesAlike_atIndexOf (h.completesAlike_ifAnswerFits h.after_readStatus)
  | disp =>
    refine h.completesAlike_atIndexOf ?_
    rw [← h.cfg, ← h.sw]
    exact (h.after_enterBranch _ _).completesAlike
  | wclr | wcpu | wptm | wsta =>
    refine h.completesAlike_atIndexOf ?_
    rw [← h.cfg]
    exact (h.after_controlWrite _ _).completesAlike
  | rdpt =>
    refine h.completesAlike_atIndexOf ?_
    by_cases h0 : s.rem = 0
    · have hnext : SameAcquisition { s with upc := .run 15 } { s' with upc := .run 15 } :=
        { h with upc := rfl }
      rw [if_pos h0, if_pos (h.rem ▸ h0)]
      exact hnext.completesAlike
    · rw [if_neg h0, if_neg (h.rem ▸ h0), ← h.chunkSize_eq]
      exact h.completesAlike_ifAnswerFits h.after_readChunk
  | publ =>
    have hnext : SameAcquisition
        { s with tb := assembleReport s.cfg s.sw s.scratch, upc := .run 16 }
        { s' with tb := assembleReport s'.cfg s'.sw s'.scratch, upc := .run 16 } :=
      { h with upc := rfl }
    exact h.completesAlike_atIndexOf (hnext.of_traces _ _).completesAlike
  | lclr =>
    have hnext : SameAcquisition (advance { s with latch := false })
        (advance { s' with latch := false }) := { h with upc := congrArg nextUpc h.upc }
    exact h.completesAlike_atIndexOf hnext.completesAlike
  | done => exact h.completesAlike_atIndexOf h.after_finishCycle.completesAlike
  | _ => simp at hi

end

/-- IRQ, TAKE and QUERY change the latch, the buffer's count and the trace only. -/
theorem exec_agent_sameAcquisition {s t : State} {i : Instr} (hi : i = .irq ∨ i = .take ∨ i = .query)
    (h : exec i s = .next t) : SameAcquisition s t := by
  rcases hi with rfl | rfl | rfl <;>
  · cases h
    constructor <;> rfl

/-- Settles O45: the frame of the three agents' operations, and the micro-ops as functions of what a cycle works
with. -/
theorem acquisitionIgnoresLatchAndBuffer : Obligations.AcquisitionIgnoresLatchAndBuffer :=
  ⟨fun _ _ _ => exec_agent_sameAcquisition, fun _ _ t _ hi h => h.exec_micro hi t⟩

end Sys2Proof.Machine

namespace Sys2Proof

open Machine

/-! ### Decoding what was encoded (R92, R93, R96, R100, R106) -/

/-- A request to read the status register is the status read: it is the first read of its cycle (R102). -/
theorem decodeRead_status (cfg : Config) :
    decodeRead cfg true (cfg.regStatus ++ 4#16) = .ok .cmdRdStatus := by
  simp [decodeRead]

/-- A later read of the payload register is a payload read, even where the two addresses are equal (R102). -/
theorem decodeRead_points {cfg : Config} {n : BitVec 16} (h1 : 1 ≤ n.toNat)
    (h2 : n.toNat ≤ cfg.maxXfer) :
    decodeRead cfg false (cfg.regPointData ++ n) = .ok (.cmdRdPoints n) := by
  have hstatus : ¬(cfg.regPointData = cfg.regStatus ∧ cfg.regStatus ≠ cfg.regPointData) :=
    fun h => h.2 h.1.symm
  simp [decodeRead, hstatus, h1, h2]

/-- Each control write decodes to its own command, as the four addresses differ (R72, R102). -/
theorem decodeWrite_commands (cfg : Config) :
    decodeWrite cfg (cfg.regClearInt ++ (cfg.plClearInt.p0 ++ cfg.plClearInt.p1)) =
      .ok .cmdClearInt ∧
    decodeWrite cfg (cfg.regStartCpu ++ (cfg.plStartCpu.p0 ++ cfg.plStartCpu.p1)) =
      .ok .cmdStartCpu ∧
    decodeWrite cfg (cfg.regPointMode ++ (cfg.plPointMode.p0 ++ cfg.plPointMode.p1)) =
      .ok .cmdPointMode ∧
    decodeWrite cfg (cfg.regStartSampling ++ (cfg.plStartSampling.p0 ++ cfg.plStartSampling.p1)) =
      .ok .cmdStartSampling := by
  obtain ⟨h1, h2, h3, h4, h5, h6⟩ := commands_ne cfg
  simp [decodeWrite, h1.symm, h2.symm, h3.symm, h4.symm, h5.symm, h6.symm]
  exact ⟨writeWord_payload _ _, writeWord_payload _ _, writeWord_payload _ _, writeWord_payload _ _⟩

/-- A selector row's word is its payload, whose row the scan finds again (R96). -/
theorem decode_selector {cfg : Config} {i : Instr} {sw : BitVec 32} (h : (selectRow cfg sw == i) = true) :
    decode cfg .branch (wordBytes sw) = .ok i := by
  have hrow : selectRow cfg sw = i := eq_of_beq h
  simp [decode, Except.map, hrow]

/-- Settles O4: by the kind of word; the 4-bit codes are decoded by computing, and the 32-bit words by the lemmas
on rows, reads and writes. -/
theorem decodeInvertsEncode : Obligations.DecodeInvertsEncode := by
  intro cfg i h
  obtain ⟨hclear, hcpu, hmode, hsampling⟩ := decodeWrite_commands cfg
  cases i with
  | reset | take | poll | irq | query => rfl
  | rdst | disp | wclr | wcpu | wptm | wsta | rdpt | publ | lclr | done => rfl
  | decode sw => simp [encode, decode, Except.map]
  | branch1 | branch2 | branch3 | branch4Pt | branch4Ges | branch5 | branch6 =>
    exact decode_selector h
  | cmdRdStatus => simpa [encode, decode, readBytes, Except.bind] using decodeRead_status cfg
  | cmdRdPoints n =>
    have hn : 1 ≤ n.toNat ∧ n.toNat ≤ cfg.maxXfer := by simpa [Instr.wf] using h
    simpa [encode, decode, readBytes, Except.bind] using decodeRead_points hn.1 hn.2
  | cmdClearInt => simpa [encode, decode, writeBytes, Except.bind] using hclear
  | cmdStartCpu => simpa [encode, decode, writeBytes, Except.bind] using hcpu
  | cmdPointMode => simpa [encode, decode, writeBytes, Except.bind] using hmode
  | cmdStartSampling => simpa [encode, decode, writeBytes, Except.bind] using hsampling

/-! ### Encoding what was decoded -/

theorem except_bind_eq_ok {ε α β : Type} {x : Except ε α} {f : α → Except ε β} {b : β}
    (h : x.bind f = .ok b) : ∃ a, x = .ok a ∧ f a = .ok b := by
  cases x with
  | error => cases h
  | ok a => exact ⟨a, rfl, h⟩

theorem except_map_eq_ok {ε α β : Type} {x : Except ε α} {f : α → β} {b : β}
    (h : x.map f = .ok b) : ∃ a, x = .ok a ∧ f a = b := by
  cases x with
  | error => cases h
  | ok a => cases h; exact ⟨a, rfl, rfl⟩

/-- A word is encoded back: the instruction is well formed and its bytes are these. -/
def EncodesBack (cfg : Config) (i : Instr) (bytes : List Byte) : Prop :=
  i.wf cfg = true ∧ (encode cfg i).2 = bytes

/-- A 4-bit code is that of the instruction it decodes to, in each of the three groups (R100, R106). -/
theorem code_encodesBack {cfg : Config} {c : BitVec 4} {i : Instr}
    (h : decodeEvent c = .ok i ∨ decodeQuery c = .ok i ∨ decodeUop c = .ok i) :
    EncodesBack cfg i (codeByte c) := by
  obtain ⟨n⟩ := c
  fin_cases n <;> rcases h with ⟨⟨⟩⟩ | ⟨⟨⟩⟩ | ⟨⟨⟩⟩ <;> exact ⟨rfl, rfl⟩

/-- A payload is the word of the row that the scan selects for it (R96). -/
theorem selectRow_encodesBack (cfg : Config) (sw : BitVec 32) :
    EncodesBack cfg (selectRow cfg sw) (wordBytes sw) := by
  rcases selectRow_cases cfg sw with h | h | h | h | h | h | h <;> rw [h] <;>
    exact ⟨beq_iff_eq.2 h, rfl⟩

/-- A read's word is its register above its count (R93). -/
theorem word_eq_halves (w : BitVec 32) : w.extractLsb' 16 16 ++ w.extractLsb' 0 16 = w := by
  apply BitVec.eq_of_toNat_eq
  have h := w.isLt
  rw [append_toNat, BitVec.extractLsb'_toNat, BitVec.extractLsb'_toNat, Nat.shiftRight_eq_div_pow,
    Nat.shiftRight_eq_div_pow]
  omega

/-- The low half of a control write's word is its payload (R92). -/
theorem half_eq_payload (w : BitVec 32) :
    w.extractLsb' 8 8 ++ w.extractLsb' 0 8 = w.extractLsb' 0 16 := by
  apply BitVec.eq_of_toNat_eq
  rw [append_toNat, BitVec.extractLsb'_toNat, BitVec.extractLsb'_toNat, BitVec.extractLsb'_toNat]
  simp only [Nat.shiftRight_eq_div_pow]
  omega

/-- A decoder that tests a word's address and then its other fields: either both tests hold, or it is the rest
that decodes the word. -/
theorem tested_eq_ok {ε α : Type} {p q : Prop} [Decidable p] [Decidable q] {a i : α} {e : ε}
    {rest : Except ε α} (h : (if p then if q then .ok a else .error e else rest) = .ok i) :
    (p ∧ q ∧ a = i) ∨ rest = .ok i := by
  by_cases hp : p
  · by_cases hq : q
    · exact .inl ⟨hp, hq, by simpa [hp, hq] using h⟩
    · simp [hp, hq] at h
  · exact .inr (by simpa [hp] using h)

/-- A read request that decodes asks for what the command it decodes to asks for (R93, R102). -/
theorem decodeRead_encodesBack {cfg : Config} {first : Bool} {w : BitVec 32} {i : Instr}
    (h : decodeRead cfg first w = .ok i) : EncodesBack cfg i (wordBytes w) := by
  have hw := word_eq_halves w
  rcases tested_eq_ok h with ⟨hstatus, hn, rfl⟩ | h
  · obtain ⟨hreg, -⟩ := Bool.and_eq_true_iff.1 hstatus
    rw [eq_of_beq hreg, eq_of_beq hn] at hw
    exact ⟨rfl, congrArg wordBytes hw⟩
  rcases tested_eq_ok h with ⟨hreg, hn, rfl⟩ | ⟨⟨⟩⟩
  rw [eq_of_beq hreg] at hw
  exact ⟨hn, congrArg wordBytes hw⟩

/-- A word with a command's register and payload is the word of that command's write (R92). -/
theorem writeBytes_of_fields {w : BitVec 32} {reg : BitVec 16} {pl : Payload}
    (hreg : (w.extractLsb' 16 16 == reg) = true)
    (hpl : ({ p0 := w.extractLsb' 8 8, p1 := w.extractLsb' 0 8 } : Payload) = pl) :
    writeBytes reg pl = wordBytes w := by
  subst hpl
  rw [← eq_of_beq hreg, writeBytes, half_eq_payload, word_eq_halves]

/-- A control write that decodes is the write of the command it decodes to (R92, R102). -/
theorem decodeWrite_encodesBack {cfg : Config} {w : BitVec 32} {i : Instr}
    (h : decodeWrite cfg w = .ok i) : EncodesBack cfg i (wordBytes w) := by
  rcases tested_eq_ok h with ⟨hreg, hpl, rfl⟩ | h
  · exact ⟨rfl, writeBytes_of_fields hreg hpl⟩
  rcases tested_eq_ok h with ⟨hreg, hpl, rfl⟩ | h
  · exact ⟨rfl, writeBytes_of_fields hreg hpl⟩
  rcases tested_eq_ok h with ⟨hreg, hpl, rfl⟩ | h
  · exact ⟨rfl, writeBytes_of_fields hreg hpl⟩
  rcases tested_eq_ok h with ⟨hreg, hpl, rfl⟩ | ⟨⟨⟩⟩
  exact ⟨rfl, writeBytes_of_fields hreg hpl⟩

/-- Settles O5: each kind of word takes its bytes apart, and what it decodes them to is encoded back. -/
theorem encodeInvertsDecode : Obligations.EncodeInvertsDecode := by
  intro cfg kind bytes i h
  cases kind with
  | event =>
    obtain ⟨c, hc, hi⟩ := except_bind_eq_ok h
    exact nibbleOf_eq_ok hc ▸ code_encodesBack (.inl hi)
  | query =>
    obtain ⟨c, hc, hi⟩ := except_bind_eq_ok h
    exact nibbleOf_eq_ok hc ▸ code_encodesBack (.inr (.inl hi))
  | uop =>
    obtain ⟨c, hc, hi⟩ := except_bind_eq_ok h
    exact nibbleOf_eq_ok hc ▸ code_encodesBack (.inr (.inr hi))
  | decoder =>
    obtain ⟨w, hw, rfl⟩ := except_map_eq_ok h
    exact ⟨rfl, (wordOf_eq_ok hw).symm⟩
  | branch =>
    obtain ⟨w, hw, rfl⟩ := except_map_eq_ok h
    exact wordOf_eq_ok hw ▸ selectRow_encodesBack cfg w
  | read first =>
    obtain ⟨w, hw, hi⟩ := except_bind_eq_ok h
    exact wordOf_eq_ok hw ▸ decodeRead_encodesBack hi
  | write =>
    obtain ⟨w, hw, hi⟩ := except_bind_eq_ok h
    exact wordOf_eq_ok hw ▸ decodeWrite_encodesBack hi

end Sys2Proof

namespace Sys2Proof.Machine

/-! ### The machine's invariant (R23, R30, R31, R40, R155, R161, R249) -/

/-- The invariant reads neither the requests, nor the answers, nor the trace; of the touch buffer it reads the
number of slots and the count, and the latch may be set. -/
theorem Inv.congr {s t : State} (h : Inv s) (hcfg : t.cfg = s.cfg)
    (hslots : t.tb.points.length = s.tb.points.length) (hcount : t.tb.touchNum ≤ s.tb.touchNum)
    (hlatch : s.latch = true → t.latch = true) (hupc : t.upc = s.upc) (hsw : t.sw = s.sw)
    (hrem : t.rem = s.rem) (hoff : t.off = s.off) (hscratch : t.scratch = s.scratch)
    (hres : t.res = s.res) : Inv t where
  slots := by rw [hslots, hcfg, h.slots]
  count := hcfg ▸ hcount.trans h.count
  scratchLen := by rw [hscratch, hcfg, h.scratchLen]
  running := by rw [hupc, hres, h.running]
  resLoc := by rw [hres]; exact h.resLoc
  resBranch := by rw [hupc, hres]; exact h.resBranch
  chosen := by rw [hupc, hcfg, hsw]; exact h.chosen
  latch := by rw [hupc]; exact fun k hk hl => hlatch (h.latch k hk hl)
  payload := by rw [hupc, hoff, hrem, hsw]; exact h.payload
  complete := by rw [hupc, hrem]; exact h.complete
  failed := by rw [hres]; exact fun hf => hlatch (h.failed hf)
  unmatched := by rw [hres]; exact fun ho hb => hlatch (h.unmatched ho hb)

/-- While a cycle is in flight `RES` is `RUNNING`, at 0 (R32, R40). -/
theorem Inv.running_at {s : State} {k : Fin 23} (h : Inv s) (hu : s.upc = .run k) :
    s.res.code = .running ∧ s.res.loc = 0 := by
  have hrun : s.res.code = .running := h.running.1 (by simp [hu])
  exact ⟨hrun, h.resLoc (by rw [hrun]; rfl)⟩

/-- A micro-op that goes straight on to the next index, changing at most the touch buffer and the latch. -/
theorem Inv.next_index {s t : State} {k : Fin 23} (h : Inv s) (hu : s.upc = .run k)
    (hk : k ∉ [0, 1, 5, 10, 13, 14, 18, 21, 22]) (hcfg : t.cfg = s.cfg)
    (hslots : t.tb.points.length = s.cfg.maxPoints) (hcount : t.tb.touchNum ≤ s.cfg.maxPoints)
    (hlatch : latchHeldAt (k + 1) = true → t.latch = true) (hupc : t.upc = nextUpc s.upc)
    (hsw : t.sw = s.sw) (hrem : t.rem = s.rem) (hoff : t.off = s.off)
    (hscratch : t.scratch = s.scratch) (hres : t.res = s.res) : Inv t := by
  obtain ⟨hlast, hbranch, htwo, hfifteen, -⟩ := next_index_facts k hk
  obtain ⟨hrun, hloc⟩ := h.running_at hu
  refine .of_run (k + 1) (hcfg ▸ hslots) (hcfg ▸ hcount) (by rw [hscratch, hcfg, h.scratchLen])
    (by rw [hupc, hu, nextUpc_run hlast]) (hres ▸ hrun) (hres ▸ hloc) ?_ (fun _ => ?_) hlatch ?_ ?_
  · rw [hres, hbranch, h.resBranch k hu]
  · rw [hcfg, hsw, hbranch, h.chosen k hu htwo]
  · rw [hbranch, hoff, hrem, hsw]; exact h.payload k hu
  · rw [hbranch, hrem]; exact fun h4 _ => h.complete k hu h4 (hfifteen h4)

/-- A failure raised at an index before the branch's LCLR, after one bus transaction (R248, R249). -/
theorem Inv.after_failure {s : State} {k : Fin 23} (h : Inv s) (hu : s.upc = .run k)
    (hk : latchHeldAt k = true) {f : ResCode} (hf : isFailure f = true) (loc : Fin 23) (n : Nat)
    (lines : List TraceLine) :
    Inv (raiseFailure f loc { (takeAnswer n s).2 with trace := lines }) := by
  have hl : s.latch = true := h.latch k hu hk
  have hcode : f ≠ .running := by rintro rfl; cases hf
  exact .of_idle (by simpa using h.slots) (by simpa using h.count) (by simpa using h.scratchLen) rfl
    (by simpa using hcode) (by simp [hf]) (by simp [hl]) (by simp [hl])

/-- RDST leads to DISP, or fails while the latch is set. -/
theorem execRdst_keeps_inv {s t : State} (h : Inv s) (he : execRdst s = .next t) : Inv t := by
  obtain ⟨hu, ⟨bytes, -, -, rfl⟩ | rfl⟩ := execRdst_next he
  · obtain ⟨hrun, hloc⟩ := h.running_at hu
    have hl : s.latch = true := h.latch 0 hu rfl
    have hb : s.res.branch = none := h.resBranch 0 hu
    exact .of_run 1 (by simpa using h.slots) (by simpa using h.count) (by simpa using h.scratchLen) rfl
      (by simpa using hrun) (by simpa using hloc) (by simpa [branchAt] using hb) (by simp)
      (by simp [hl]) (by simp [branchAt]) (by simp [branchAt])
  · exact h.after_failure hu rfl rfl _ _ _

/-- DISP enters the run of the branch that `SW` selects, and branch 4 with the whole payload left to read. -/
theorem execDisp_keeps_inv {s t : State} (h : Inv s) (he : execDisp s = .next t) : Inv t := by
  obtain ⟨hu, rfl⟩ := execDisp_next he
  obtain ⟨hrun, hloc⟩ := h.running_at hu
  have hl : s.latch = true := h.latch 1 hu rfl
  generalize hb : branchOf s.cfg (decodeStatus s.sw) = b
  have hat : branchAt (branchEntry b) = some b := by cases b <;> rfl
  refine .of_run (branchEntry b) h.slots h.count h.scratchLen rfl hrun hloc hat.symm
    (fun _ => ?_) (fun _ => hl) (fun h4 => ?_) (fun h4 h15 => ?_)
  · simp [hat, hb]
  · obtain rfl : b = .b4 := by simpa [hat] using h4
    simp
  · obtain rfl : b = .b4 := by simpa [hat] using h4
    simp [branchEntry] at h15

/-- The control writes stand where a run goes straight on, with the latch set (R141). -/
theorem control_index_facts : ∀ k : Fin 23,
    microAt k = .wclr ∨ microAt k = .wcpu ∨ microAt k = .wptm ∨ microAt k = .wsta →
    k ∉ [0, 1, 5, 10, 13, 14, 18, 21, 22] ∧ latchHeldAt k = true ∧ latchHeldAt (k + 1) = true := by
  decide

/-- A control write goes straight on, or fails while the latch is set. -/
theorem exec_control_keeps_inv {s t : State} {k : Fin 23} (h : Inv s) (hu : s.upc = .run k)
    (hi : microAt k = .wclr ∨ microAt k = .wcpu ∨ microAt k = .wptm ∨ microAt k = .wsta)
    (he : exec (microAt k) s = .next t) : Inv t := by
  obtain ⟨k', reg, pl, -, hu', -, hcase⟩ := exec_control_next hi he
  obtain rfl : k = k' := by simpa [hu] using hu'
  obtain ⟨hmem, hheld, -⟩ := control_index_facts k hi
  rcases hcase with rfl | rfl
  · exact h.next_index hu hmem (by simp) (by simpa using h.slots) (by simpa using h.count)
      (fun _ => by simpa using h.latch k hu hheld) rfl (by simp) (by simp) (by simp) (by simp)
      (by simp)
  · exact h.after_failure hu hheld rfl _ _ _

/-- RDPT moves a chunk from `REM` to `OFF`, goes on when `REM` is 0, or fails while the latch is set. -/
theorem execRdpt_keeps_inv {s t : State} (h : Inv s) (he : execRdpt s = .next t) : Inv t := by
  obtain ⟨hu, hcase⟩ := execRdpt_next he
  obtain ⟨hrun, hloc⟩ := h.running_at hu
  obtain ⟨hsum, hfits⟩ := h.counters_at_rdpt hu
  have hl : s.latch = true := h.latch 14 hu rfl
  have hb : s.res.branch = some .b4 := h.resBranch 14 hu
  have hchosen : some .b4 = some (branchOf s.cfg (decodeStatus s.sw)) := h.chosen 14 hu (by decide)
  rcases hcase with ⟨h0, rfl⟩ | ⟨h0, bytes, -, -, rfl⟩ | ⟨h0, rfl⟩
  · exact .of_run 15 h.slots h.count h.scratchLen rfl hrun hloc hb (fun _ => hchosen) (fun _ => hl)
      (fun _ => hsum) (fun _ _ => h0)
  · have hle := chunkSize_le_rem s.cfg s.rem
    refine .of_run 14 (by simpa using h.slots) (by simpa using h.count) (by simpa using h.scratchLen)
      (by simpa using hu) (by simpa using hrun) (by simpa using hloc)
      ((congrArg Result.branch (takeAnswer_res _ _)).trans hb)
      (fun _ => by simpa [branchAt] using hchosen) (by simp [hl]) (fun _ => ?_) (by simp)
    simp only [takeAnswer_sw]
    rw [off_add_chunk hfits, rem_sub_chunk]
    omega
  · exact h.after_failure hu rfl rfl _ _ _

/-- DONE ends the cycle; after branch 6, which has no LCLR, the latch is set (R155). -/
theorem execDone_keeps_inv {s t : State} (h : Inv s) (he : execDone s = .next t) : Inv t := by
  obtain ⟨k, hu, hm, rfl⟩ := execDone_next he
  obtain ⟨-, hloc⟩ := h.running_at hu
  have hlast : ∀ k : Fin 23, branchAt k = some .b6 → latchHeldAt k = true := by decide
  refine .of_idle h.slots h.count h.scratchLen rfl (by simp) (fun _ => hloc) (by simp [isFailure])
    (fun _ h6 => ?_)
  have hb : branchAt k = some .b6 := (h.resBranch k hu).symm.trans h6
  exact h.latch k hu (hlast k hb)

/-- The micro-op at `upc` keeps the invariant. -/
theorem exec_micro_keeps_inv {s t : State} {k : Fin 23} (h : Inv s) (hu : s.upc = .run k)
    (he : exec (microAt k) s = .next t) : Inv t := by
  rcases microAt_groups k with hm | hm | hctl | hm | hm | hm | hm
  · rw [hm] at he; exact execRdst_keeps_inv h he
  · rw [hm] at he; exact execDisp_keeps_inv h he
  · exact exec_control_keeps_inv h hu hctl he
  · rw [hm] at he; exact execRdpt_keeps_inv h he
  · obtain rfl := microAt_publ.1 hm
    obtain ⟨-, rfl⟩ := execPubl_next he
    exact h.next_index hu (by decide) rfl (assembleReport_points_length _ _ _) (recordCount_le _ _)
      (fun _ => h.latch 15 hu rfl) (by rw [hu]; rfl) rfl rfl rfl rfl rfl
  · rw [hm] at he
    obtain ⟨-, -, -, rfl⟩ := execLclr_next he
    have hlclr : ∀ k : Fin 23, microAt k = .lclr →
        k ∉ [0, 1, 5, 10, 13, 14, 18, 21, 22] ∧ latchHeldAt (k + 1) = false := by decide
    obtain ⟨hmem, hheld⟩ := hlclr k hm
    exact h.next_index hu hmem rfl h.slots h.count (by simp [hheld]) rfl rfl rfl rfl rfl rfl
  · rw [hm] at he; exact execDone_keeps_inv h he

/-- RESET empties the machine, whatever state it was in (R280). -/
theorem execReset_inv {s t : State} (he : execReset s = .next t) : Inv t := by
  cases he
  exact .of_idle (by simp [emptyReport]) (Nat.zero_le _) (by simp) rfl (by simp [resultNone])
    (fun _ => rfl) (by rintro ⟨⟩) (by rintro ⟨⟩)

/-- POLL starts a cycle with the latch set, or returns at once (R140). -/
theorem execPoll_keeps_inv {s t : State} (h : Inv s) (he : execPoll s = .next t) : Inv t := by
  obtain ⟨hu, ⟨hl, rfl⟩ | ⟨-, rfl⟩⟩ := execPoll_next he
  · exact .of_run 0 h.slots h.count h.scratchLen rfl rfl rfl rfl (by simp) (fun _ => hl)
      (by rintro ⟨⟩) (by rintro ⟨⟩)
  · exact .of_idle h.slots h.count h.scratchLen hu (by simp [resultNone]) (fun _ => rfl)
      (by rintro ⟨⟩) (by rintro ⟨⟩)

/-- The five events keep the invariant. -/
theorem exec_event_keeps_inv {s t : State} {i : Instr} (h : Inv s)
    (hi : i = .reset ∨ i = .irq ∨ i = .poll ∨ i = .take ∨ i = .query)
    (he : exec i s = .next t) : Inv t := by
  rcases hi with rfl | rfl | rfl | rfl | rfl
  · exact execReset_inv he
  · cases he; exact h.congr rfl rfl le_rfl (fun _ => rfl) rfl rfl rfl rfl rfl rfl
  · exact execPoll_keeps_inv h he
  · cases he; exact h.congr rfl rfl (Nat.zero_le _) id rfl rfl rfl rfl rfl rfl
  · cases he; exact h.congr rfl rfl (Nat.zero_le _) id rfl rfl rfl rfl rfl rfl

/-- Settles O48: each event and each micro-op keeps the invariant by its own lemma. -/
theorem stepKeepsInv : Obligations.StepKeepsInv := by
  intro s t h hstep
  refine step_next_cases hstep h.consume (fun i hi he => exec_event_keeps_inv h.consume hi he)
    (fun sw he => ?_) (fun k hu he => exec_micro_keeps_inv h.consume hu he)
  cases he
  exact h.congr rfl rfl le_rfl id rfl rfl rfl rfl rfl rfl

/-! ### The order of control writes in a cycle (R150 to R155, R159 to R162) -/

/-- The control writes a cycle at index `k` has made. -/
def writesBefore (cfg : Config) (k : Fin 23) : List BusWriteRecord :=
  (runWrites cfg k).take (writesMadeAt k)

/-- A state in flight keeps the order when its writes are those before its index. -/
theorem WritesInOrder.of_run {s : State} {k : Fin 23} (hu : s.upc = .run k)
    (hr : s.res.code = .running) (hw : cycleWrites s = writesBefore s.cfg k) : WritesInOrder s where
  inFlight k' h := by
    obtain rfl : k = k' := by simpa [hu] using h
    exact hw
  afterOk h := by simp [hr] at h
  afterFailedWrite h := by simp [hr] at h
  afterFailedRead h := by simp [hr] at h

/-- An idle state keeps the order through the clause of its result; NO_EVENT has none. -/
theorem WritesInOrder.of_idle {s : State} (hu : s.upc = .idle)
    (hok : s.res.code = .ok → ∃ b, s.res.branch = some b ∧ cycleWrites s = branchWrites s.cfg b)
    (hwrite : s.res.code = .failWrite → cycleWrites s = writesBefore s.cfg s.res.loc ++
      (((runWrites s.cfg s.res.loc).drop (writesMadeAt s.res.loc)).take 1).map failedWrite)
    (hread : s.res.code = .failStatus ∨ s.res.code = .failData → cycleWrites s = []) :
    WritesInOrder s where
  inFlight _ h := by simp [hu] at h
  afterOk := hok
  afterFailedWrite := hwrite
  afterFailedRead := hread

/-- The order reads the parameters, `upc`, `RES` and the writes since POLL, and nothing else. -/
theorem WritesInOrder.congr {s t : State} (h : WritesInOrder s) (hcfg : t.cfg = s.cfg)
    (hupc : t.upc = s.upc) (hres : t.res = s.res) (hw : cycleWrites t = cycleWrites s) :
    WritesInOrder t := by
  obtain ⟨inFlight, afterOk, afterFailedWrite, afterFailedRead⟩ := h
  constructor <;> simp only [hcfg, hupc, hres, hw] <;> assumption

/-- A micro-op that makes no write goes from an index to one before which the same writes stand. -/
theorem WritesInOrder.no_write {s t : State} {k k' : Fin 23} (h : WritesInOrder s) (hI : Inv s)
    (hu : s.upc = .run k) (hupc : t.upc = .run k') (hcfg : t.cfg = s.cfg)
    (hcode : t.res.code = s.res.code) (hw : cycleWrites t = cycleWrites s)
    (hk : writesBefore s.cfg k' = writesBefore s.cfg k) : WritesInOrder t :=
  .of_run hupc (hcode.trans (hI.running_at hu).1)
    (by rw [hw, hcfg, hk]; exact h.inFlight k hu)

/-- A write and its settle delay go to the end of the cycle's writes. -/
theorem cycleWrites_wr {s t : State} {dev d : Nat} {reg : BitVec 16} {pl : Payload} {ok : Bool}
    (ht : t.trace = .settle d :: .wr dev reg pl.p0 pl.p1 ok :: s.trace) :
    cycleWrites t = cycleWrites s ++ [writeRecord reg pl ok] := by
  unfold cycleWrites
  rw [ht]
  exact List.reverse_cons

/-- A read adds nothing to the cycle's writes. -/
theorem cycleWrites_rd {s t : State} {dev n : Nat} {reg : BitVec 16} {a : BusAnswer}
    (ht : t.trace = .rd dev reg n a :: s.trace) : cycleWrites t = cycleWrites s :=
  cycleWrites_cons ht (by simp) (by simp)

/-- Raising a failure makes no write. -/
theorem cycleWrites_raiseFailure (f : ResCode) (loc : Fin 23) (s : State) :
    cycleWrites (raiseFailure f loc s) = cycleWrites s := rfl

/-- RDST makes no write, and none stands before DISP. -/
theorem execRdst_keeps_writes {s t : State} (hI : Inv s) (h : WritesInOrder s)
    (he : execRdst s = .next t) : WritesInOrder t := by
  obtain ⟨hu, ⟨bytes, -, -, rfl⟩ | rfl⟩ := execRdst_next he
  · exact h.no_write hI hu rfl (by simp) (by simp) (cycleWrites_rd rfl) rfl
  · have hnone : cycleWrites s = [] := h.inFlight 0 hu
    exact .of_idle rfl (by simp) (by simp) fun _ => by
      rw [cycleWrites_raiseFailure, cycleWrites_rd rfl, hnone]

/-- DISP makes no write, and none stands before a run's entry. -/
theorem execDisp_keeps_writes {s t : State} (hI : Inv s) (h : WritesInOrder s)
    (he : execDisp s = .next t) : WritesInOrder t := by
  obtain ⟨hu, rfl⟩ := execDisp_next he
  generalize branchOf s.cfg (decodeStatus s.sw) = b
  exact h.no_write hI hu rfl rfl rfl rfl (by cases b <;> rfl)

/-- A control write makes the write that its branch has next, and fails with that write (R159). -/
theorem exec_control_keeps_writes {s t : State} {k : Fin 23} (hI : Inv s) (h : WritesInOrder s)
    (hu : s.upc = .run k)
    (hi : microAt k = .wclr ∨ microAt k = .wcpu ∨ microAt k = .wptm ∨ microAt k = .wsta)
    (he : exec (microAt k) s = .next t) : WritesInOrder t := by
  obtain ⟨k', reg, pl, hwhich, hu', -, hcase⟩ := exec_control_next hi he
  obtain rfl : k = k' := by simpa [hu] using hu'
  obtain ⟨hnext, hlast, hmade⟩ := control_write_is_next s.cfg k _ reg pl hwhich rfl
  have hbefore : cycleWrites s = writesBefore s.cfg k := h.inFlight k hu
  rcases hcase with rfl | rfl
  · refine .of_run (k := k + 1) (by rw [← nextUpc_run hlast, ← hu]) ?_ ?_
    · simpa using (hI.running_at hu).1
    · rw [cycleWrites_wr rfl, hbefore]
      simpa [writesBefore] using hmade.symm
  · refine .of_idle rfl (by simp) (fun _ => ?_) (by simp)
    rw [cycleWrites_raiseFailure, cycleWrites_wr rfl, hbefore]
    simp [hnext, writeRecord, failedWrite]

/-- RDPT makes no write, and none stands before PUBL. -/
theorem execRdpt_keeps_writes {s t : State} (hI : Inv s) (h : WritesInOrder s)
    (he : execRdpt s = .next t) : WritesInOrder t := by
  obtain ⟨hu, ⟨-, rfl⟩ | ⟨-, bytes, -, -, rfl⟩ | ⟨-, rfl⟩⟩ := execRdpt_next he
  · exact h.no_write hI hu rfl rfl rfl rfl rfl
  · exact h.no_write hI hu (by simpa using hu) (by simp) (by simp) (cycleWrites_rd rfl) rfl
  · have hnone : cycleWrites s = [] := h.inFlight 14 hu
    exact .of_idle rfl (by simp) (by simp) fun _ => by
      rw [cycleWrites_raiseFailure, cycleWrites_rd rfl, hnone]

/-- At a run's DONE its whole list of writes has been made (R150 to R155). -/
theorem writesBefore_of_done (cfg : Config) {k : Fin 23} (hm : microAt k = .done) :
    ∃ b, branchAt k = some b ∧ writesBefore cfg k = branchWrites cfg b := by
  have hk := microAt_done.1 hm
  simp only [List.mem_cons, List.not_mem_nil, or_false] at hk
  rcases hk with rfl | rfl | rfl | rfl | rfl | rfl <;> exact ⟨_, rfl, rfl⟩

/-- DONE ends a cycle that has made all writes of its branch. -/
theorem execDone_keeps_writes {s t : State} (hI : Inv s) (h : WritesInOrder s)
    (he : execDone s = .next t) : WritesInOrder t := by
  obtain ⟨k, hu, hm, rfl⟩ := execDone_next he
  obtain ⟨b, hb, hall⟩ := writesBefore_of_done s.cfg hm
  have hbefore : cycleWrites s = writesBefore s.cfg k := h.inFlight k hu
  exact .of_idle rfl (fun _ => ⟨b, (hI.resBranch k hu).trans hb, hbefore.trans hall⟩) (by simp)
    (by simp)

/-- LCLR makes no write: the writes before the index after it are those before it. -/
theorem writesBefore_after_lclr (cfg : Config) {k : Fin 23} (hm : microAt k = .lclr) :
    writesBefore cfg (k + 1) = writesBefore cfg k := by
  have hk := microAt_lclr.1 hm
  simp only [List.mem_cons, List.not_mem_nil, or_false] at hk
  rcases hk with rfl | rfl | rfl | rfl | rfl <;> rfl

/-- The micro-op at `upc` keeps the order of writes. -/
theorem exec_micro_keeps_writes {s t : State} {k : Fin 23} (hI : Inv s) (h : WritesInOrder s)
    (hu : s.upc = .run k) (he : exec (microAt k) s = .next t) : WritesInOrder t := by
  rcases microAt_groups k with hm | hm | hctl | hm | hm | hm | hm
  · rw [hm] at he; exact execRdst_keeps_writes hI h he
  · rw [hm] at he; exact execDisp_keeps_writes hI h he
  · exact exec_control_keeps_writes hI h hu hctl he
  · rw [hm] at he; exact execRdpt_keeps_writes hI h he
  · obtain rfl := microAt_publ.1 hm
    obtain ⟨-, rfl⟩ := execPubl_next he
    exact h.no_write hI hu rfl rfl rfl rfl rfl
  · rw [hm] at he
    obtain ⟨-, -, -, rfl⟩ := execLclr_next he
    have hupc : nextUpc s.upc = .run (k + 1) := by rw [hu, nextUpc_of_not_done (by simp [hm])]
    exact h.no_write hI hu hupc rfl rfl rfl (writesBefore_after_lclr s.cfg hm)
  · rw [hm] at he; exact execDone_keeps_writes hI h he

/-- The five events keep the order of writes: POLL starts a cycle with none, RESET and a POLL with nothing latched
leave no cycle to speak of, and the others change nothing the order reads. -/
theorem exec_event_keeps_writes {s t : State} {i : Instr} (h : WritesInOrder s)
    (hi : i = .reset ∨ i = .irq ∨ i = .poll ∨ i = .take ∨ i = .query)
    (he : exec i s = .next t) : WritesInOrder t := by
  rcases hi with rfl | rfl | rfl | rfl | rfl
  · cases he
    exact .of_idle rfl (by rintro ⟨⟩) (by rintro ⟨⟩) (by rintro (⟨⟨⟩⟩ | ⟨⟨⟩⟩))
  · cases he; exact h.congr rfl rfl rfl rfl
  · obtain ⟨hu, ⟨-, rfl⟩ | ⟨-, rfl⟩⟩ := execPoll_next he
    · exact .of_run (k := 0) rfl rfl rfl
    · exact .of_idle hu (by rintro ⟨⟩) (by rintro ⟨⟩) (by rintro (⟨⟨⟩⟩ | ⟨⟨⟩⟩))
  · cases he; exact h.congr rfl rfl rfl rfl
  · cases he; exact h.congr rfl rfl rfl rfl

/-- Settles O49: each micro-op keeps the order by its own lemma, the writes of a cycle being those its branch has
before its index; the events make no write. -/
theorem stepKeepsWritesInOrder : Obligations.StepKeepsWritesInOrder := by
  intro s t hI h hstep
  have hc : WritesInOrder (consume s) := h.congr rfl rfl rfl rfl
  refine step_next_cases hstep hc (fun i hi he => exec_event_keeps_writes hc hi he)
    (fun sw he => ?_) (fun k hu he => exec_micro_keeps_writes hI.consume hc hu he)
  cases he
  exact hc.congr rfl rfl rfl rfl

end Sys2Proof.Machine

namespace Sys2Proof.Machine

/-! ### What a step refuses (R13, R287, U7, U14) -/

/-- A read is refused only when the oldest queued answer is longer than asked (R62, U7). -/
theorem ifAnswerFits_refused {n : Nat} {s t : State} {r : Refusal}
    (h : ifAnswerFits n s t = .refused r) :
    r = .answerTooLong ∧ ∃ bytes rest, s.answers = .ok bytes :: rest ∧ n < bytes.length := by
  unfold ifAnswerFits at h
  by_cases hf : answerFits n s = true
  · rw [if_pos hf] at h; cases h
  · rw [if_neg hf] at h
    cases h
    refine ⟨rfl, ?_⟩
    unfold answerFits at hf
    split at hf
    · next bytes rest ha => exact ⟨bytes, rest, ha, by simpa using hf⟩
    · exact absurd rfl hf

/-- The micro-op at `upc` is refused only at a read, for an answer longer than asked. -/
theorem exec_micro_refused {s : State} {k : Fin 23} {r : Refusal} (hu : s.upc = .run k)
    (h : exec (microAt k) s = .refused r) :
    r = .answerTooLong ∧ ∃ bytes rest, s.answers = .ok bytes :: rest ∧
      ((k = 0 ∧ 4 < bytes.length) ∨
       (k = 14 ∧ s.rem ≠ 0 ∧ chunkSize s.cfg s.rem < bytes.length)) := by
  have held {op : Instr} {act : StepOutcome} (hm : microAt k = op)
      (h : atIndexOf op s act = .refused r) : act = .refused r := by
    rwa [atIndexOf_of_run hu hm] at h
  rcases microAt_groups k with hm | hm | (hm | hm | hm | hm) | hm | hm | hm | hm <;> rw [hm] at h
  case inl =>
    obtain ⟨hr, bytes, rest, ha, hl⟩ := ifAnswerFits_refused (held hm h)
    exact ⟨hr, bytes, rest, ha, .inl ⟨microAt_rdst.1 hm, hl⟩⟩
  case inr.inr.inr.inl =>
    have hact := held hm h
    split at hact
    · cases hact
    · next h0 =>
      obtain ⟨hr, bytes, rest, ha, hl⟩ := ifAnswerFits_refused hact
      exact ⟨hr, bytes, rest, ha, .inr ⟨microAt_rdpt.1 hm, h0, hl⟩⟩
  all_goals cases held hm h

/-- POLL is refused only in flight (R287). -/
theorem execPoll_refused {s : State} {r : Refusal} (h : execPoll s = .refused r) :
    r = .pollInFlight ∧ s.upc ≠ .idle := by
  unfold execPoll at h
  rcases hu : s.upc with _ | k <;> rw [hu] at h <;> cases h
  exact ⟨rfl, by simp⟩

/-- The instruction of a step is POLL only on a request: no micro-op is POLL. -/
theorem stepInstr_poll {s : State} (h : stepInstr s = some .poll) :
    ∃ rest, s.inbox = .poll :: rest := by
  have turn : turnInstr s ≠ some .poll := by
    have hmicro : ∀ k : Fin 23, microAt k ≠ .poll := by decide
    unfold turnInstr
    rcases s.upc with _ | k <;> simp [hmicro]
  unfold stepInstr at h
  rcases hb : s.inbox with _ | ⟨r, rest⟩ <;> rw [hb] at h
  · exact absurd h turn
  · cases r with
    | poll => exact ⟨rest, rfl⟩
    | turn => exact absurd h turn
    | _ => cases h

/-- Settles O6: `Fault` has no value; of the refusals, POLL's is the reentry, those of the reads are answers too
long, and nothing else a step can run is refused. -/
theorem stepRefusesOnlyReentryAndLongAnswers : Obligations.StepRefusesOnlyReentryAndLongAnswers := by
  intro s
  refine ⟨nofun, fun r h => ?_⟩
  rw [step_eq] at h
  rcases hs : stepInstr s with _ | i <;> rw [hs] at h
  · cases h
  rcases stepInstr_cases hs with rfl | rfl | rfl | rfl | rfl | ⟨sw, rfl⟩ | ⟨hturn, k, hu, rfl⟩
  case inr.inr.inl =>
    obtain ⟨hr, hne⟩ := execPoll_refused h
    exact .inl ⟨hr, hne, stepInstr_poll hs⟩
  case inr.inr.inr.inr.inr.inr =>
    obtain ⟨hr, bytes, rest, ha, hlong⟩ := exec_micro_refused (s := consume s) hu h
    refine .inr ⟨hr, hturn, bytes, rest, ha, ?_⟩
    rcases hlong with ⟨rfl, hl⟩ | ⟨rfl, h0, hl⟩
    · exact .inl ⟨hu, hl⟩
    · exact .inr ⟨hu, h0, hl⟩
  all_goals cases h

/-! ### The rows of the decode map and the six branches (R96, R145, R146) -/

/-- The row by which the decode map selects branch `b` for the payload `sw`; branch 4 has two. -/
def rowOf (b : Branch) (sw : BitVec 32) : Instr :=
  match b with
  | .b1 => .branch1 sw
  | .b2 => .branch2 sw
  | .b3 => .branch3 sw
  | .b4 => if (decodeStatus sw).ptExist then .branch4Pt sw else .branch4Ges sw
  | .b5 => .branch5 sw
  | .b6 => .branch6 sw

/-- The scan of the decode map, with the flags its rows test in place of the masks (R96, R120). -/
theorem selectRow_eq_flags (cfg : Config) (sw : BitVec 32) : selectRow cfg sw =
    let st := decodeStatus sw
    if st.inBootRom then .branch1 sw
    else if st.inCpuState && !samplingPred cfg.sampling st then .branch2 sw
    else if st.cpuRunning && st.pendingLength == 0 then .branch3 sw
    else if st.ptExist then .branch4Pt sw
    else if st.gesture then .branch4Ges sw
    else if st.cpuRunning && st.aux then .branch5 sw
    else .branch6 sw := by
  have hboot : rowMatches sw 0x00004000 0x00004000 = sw.getLsbD 14 := rowMatches_bit sw 14 (by decide)
  have hcpu : rowMatches sw 0x00002000 0x00002000 = sw.getLsbD 13 := rowMatches_bit sw 13 (by decide)
  have hpt : rowMatches sw 0x00000001 0x00000001 = sw.getLsbD 0 := rowMatches_bit sw 0 (by decide)
  have hges : rowMatches sw 0x00000002 0x00000002 = sw.getLsbD 1 := rowMatches_bit sw 1 (by decide)
  rw [selectRow, hboot, hcpu, rowMatches_empty, hpt, hges, rowMatches_event]
  rfl

/-- The decode map selects the row of the branch that R146 selects. -/
theorem selectRow_eq_rowOf (cfg : Config) (sw : BitVec 32) :
    selectRow cfg sw = rowOf (branchOf cfg (decodeStatus sw)) sw := by
  have h4 (pt ges : Bool) (rest : Instr) :
      (if pt then .branch4Pt sw else if ges then .branch4Ges sw else rest) =
        if pt || ges then (if pt then .branch4Pt sw else .branch4Ges sw) else rest := by
    cases pt <;> cases ges <;> rfl
  have hite (c : Bool) (a b : Branch) :
      rowOf (if c then a else b) sw = if c then rowOf a sw else rowOf b sw := by
    cases c <;> rfl
  rw [selectRow_eq_flags]
  simp only [branchOf, hite, h4]
  rfl

/-- Settles O12: the row selected is that of the branch, and the rows of the six branches differ. -/
theorem maskTableAgreesWithBranchConditions : Obligations.MaskTableAgreesWithBranchConditions := by
  intro cfg sw
  rw [selectRow_eq_rowOf]
  cases branchOf cfg (decodeStatus sw) with
  | b4 => rcases hpt : (decodeStatus sw).ptExist <;> simp [rowOf, hpt]
  | _ => simp [rowOf]

/-- At the dispatch step, the row that a payload selects enters the branch that it selects (R145; log 16). -/
theorem exec_selectRow {s : State} (hu : s.upc = .run 1) (sw : BitVec 32) :
    exec (selectRow s.cfg sw) s = .next (enterBranch (branchOf s.cfg (decodeStatus sw)) sw s) := by
  have hrow := selectRow_eq_rowOf s.cfg sw
  have htake {i : Instr} {b : Branch} (hi : selectRow s.cfg sw = i) :
      takeRow i b sw s = .next (enterBranch b sw s) :=
    (atIndexOf_of_run hu rfl _).trans (if_pos hi)
  generalize branchOf s.cfg (decodeStatus sw) = b at hrow
  cases b with
  | b4 => rcases hpt : (decodeStatus sw).ptExist <;> simp only [rowOf, hpt] at hrow <;>
      exact hrow ▸ htake hrow
  | _ => exact hrow ▸ htake hrow

/-- DISP enters the branch that `SW` selects (R145). -/
theorem exec_disp_at {s : State} (hu : s.upc = .run 1) :
    exec .disp s = .next (enterBranch (branchOf s.cfg (decodeStatus s.sw)) s.sw s) :=
  atIndexOf_of_run hu rfl _

/-- Settles O14: DISP and the selected row enter the same branch. -/
theorem dispatchRunsTheSelectedRow : Obligations.DispatchRunsTheSelectedRow :=
  fun s hu => (exec_disp_at hu).trans (exec_selectRow hu s.sw).symm

/-- Settles O27: DISP enters the branch, whose entry and counters are `enterBranch`'s. -/
theorem dispEntersTheSelectedBranch : Obligations.DispEntersTheSelectedBranch := by
  intro s hu st enter
  rw [exec_disp_at hu]
  refine ⟨fun h => ?_, fun h => ?_, fun h => ?_, fun h => ?_, fun h => ?_, fun h => ?_⟩ <;>
  · rw [h]; rfl

/-- A selector row whose branch the payload selects enters it. -/
theorem exec_row_of_branch {s : State} {sw : BitVec 32} {b : Branch} (hu : s.upc = .run 1)
    (hb : branchOf s.cfg (decodeStatus sw) = b) :
    exec (rowOf b sw) s = .next (enterBranch b sw s) := by
  have hrun := exec_selectRow hu sw
  rwa [selectRow_eq_rowOf, hb] at hrun

/-- Settles O13: the conditions of a row select its branch, and the row of the branch is this one. -/
theorem branchSelectorsEnterTheirRun : Obligations.BranchSelectorsEnterTheirRun := by
  intro s sw hu st arm empty enter load
  obtain ⟨b1, b2, b3, b4, b5, b6⟩ := branchTakesFirstConditionThatHolds s.cfg st
  have hrow {b : Branch} (hb : branchOf s.cfg st = b) := exec_row_of_branch hu hb
  refine ⟨fun h1 => hrow (b1.2 h1), fun h1 h2 => hrow (b2.2 ⟨h1, h2⟩),
    fun h1 h2 h3 => hrow (b3.2 ⟨h1, h2, h3⟩), fun h1 h2 h3 hpt => ?_, fun h1 h2 h3 hpt hges => ?_,
    fun h1 h2 h3 hpt hges hrun haux => hrow (b5.2 ⟨h1, h2, h3, by simp [hpt, hges], hrun, haux⟩),
    fun h1 h2 h3 hpt hges h5 => hrow (b6.2 ⟨h1, h2, h3, by simp [hpt, hges], h5⟩)⟩
  · have hpt4 : rowOf .b4 sw = .branch4Pt sw := if_pos hpt
    exact hpt4 ▸ hrow (b4.2 ⟨h1, h2, h3, .inl hpt⟩)
  · have hges4 : rowOf .b4 sw = .branch4Ges sw := if_neg (ne_true_of_eq_false hpt)
    exact hges4 ▸ hrow (b4.2 ⟨h1, h2, h3, .inr hges⟩)

end Sys2Proof.Machine

namespace Sys2Proof.Machine

/-! ### One chunk of the payload read (R181, R182) -/

/-- RDPT on an answer with all the bytes it asks for. -/
theorem exec_rdpt_of_full {s : State} {bytes : List Byte} (hu : s.upc = .run 14) (h0 : s.rem ≠ 0)
    (ha : (takeAnswer (chunkSize s.cfg s.rem) s).1 = .ok bytes)
    (hl : bytes.length = chunkSize s.cfg s.rem) :
    exec .rdpt s = .next { (takeAnswer (chunkSize s.cfg s.rem) s).2 with
      scratch := storeChunk s.scratch s.off.toNat bytes
      off := s.off + BitVec.ofNat 16 (chunkSize s.cfg s.rem)
      rem := s.rem - BitVec.ofNat 16 (chunkSize s.cfg s.rem)
      trace := .rd s.cfg.devAddr s.cfg.regPointData (chunkSize s.cfg s.rem)
        (takeAnswer (chunkSize s.cfg s.rem) s).1 :: s.trace } := by
  have hfit : ∀ b, (takeAnswer (chunkSize s.cfg s.rem) s).1 = .ok b →
      b.length ≤ chunkSize s.cfg s.rem := by
    rw [ha]; rintro _ ⟨⟩; exact hl.le
  calc exec .rdpt s
      = if s.rem = 0 then _ else ifAnswerFits (chunkSize s.cfg s.rem) s (readChunk s) :=
        atIndexOf_of_run hu rfl _
    _ = ifAnswerFits (chunkSize s.cfg s.rem) s (readChunk s) := if_neg h0
    _ = .next (readChunk s) := ifAnswerFits_of_le hfit
    _ = _ := congrArg _ (readChunk_ok ha hl.ge)

/-- Settles O29: RDPT with nothing left, with a full chunk, and with a failed or short one; what a stored chunk
does to each byte of the buffer is `storeChunk_getElem?`. -/
theorem rdptReadsOneChunk : Obligations.RdptReadsOneChunk := by
  intro s hu c a after read failed
  refine ⟨fun h0 => ?_, fun h0 bytes ha hl => ?_, fun h0 ha => ?_⟩
  · exact (atIndexOf_of_run hu rfl _).trans (if_pos h0)
  · refine ⟨_, exec_rdpt_of_full hu h0 ha hl, storeChunk_length _ _ _, fun j hj => ?_⟩
    rw [storeChunk_getElem? _ _ _ _ hj, hl]
  · rw [exec_rdpt_of_short hu h0 ha]
    simp [raiseFailure, after, read, failed, a, c, chunkSize]

/-! ### The published report (R187, R189, R190) -/

/-- Settles O31: the report is the one PUBL assembles, field by field. -/
theorem publReplacesTheWholeBuffer : Obligations.PublReplacesTheWholeBuffer := by
  intro s hu st l len count n
  have hn : recordCount s.cfg st = n := recordCount_eq s.cfg st
  refine ⟨assembleReport s.cfg s.sw s.scratch, ?_, hn, assembleReport_points_length _ _ _,
    fun i hi => ?_, fun i hi hmax => ?_, rfl⟩
  · rw [exec_publ_at hu, ← hn]; rfl
  · rw [← hn] at hi
    exact (assemblePoints_getElem? (hi.trans_le (recordCount_le s.cfg st))).trans
      (by rw [if_pos hi]; rfl)
  · exact (assemblePoints_getElem? hmax).trans (by rw [if_neg (hn.trans_le hi).not_gt])

/-- A counted record lies in the received part of the buffer (R190). -/
theorem recordBytes_take {cfg : Config} {st : StatusWord} {i : Nat} (hi : i < recordCount cfg st)
    (scratch : List Byte) :
    recordBytes cfg (scratch.take (min st.pendingLength.toNat cfg.scratchLen)) i =
      recordBytes cfg scratch i := by
  have hend := record_end_le hi
  rw [Nat.succ_mul] at hend
  unfold recordBytes
  rw [List.drop_take, List.take_take, Nat.min_eq_left (by omega)]

/-- The report depends on the received part of the buffer only (R190). -/
theorem assembleReport_congr {cfg : Config} {sw : BitVec 32} {scratch other : List Byte}
    (h : other.take (min (decodeStatus sw).pendingLength.toNat cfg.scratchLen) =
      scratch.take (min (decodeStatus sw).pendingLength.toNat cfg.scratchLen)) :
    assembleReport cfg sw other = assembleReport cfg sw scratch := by
  have hpoints : assemblePoints cfg (decodeStatus sw) other =
      assemblePoints cfg (decodeStatus sw) scratch := by
    refine List.map_congr_left fun i _ => ?_
    split
    · next hi => rw [← recordBytes_take hi other, h, recordBytes_take hi]
    · rfl
  simp only [assembleReport, payloadPrefix, hpoints, h]

/-- Settles O33: PUBL writes the assembled report, and buffers that agree on the received bytes give one report. -/
theorem publIgnoresStaleScratch : Obligations.PublIgnoresStaleScratch := by
  intro s other hagree hlen hother t u hs ho
  obtain ⟨-, rfl⟩ := execPubl_next hs
  obtain ⟨-, rfl⟩ := execPubl_next ho
  refine assembleReport_congr (List.ext_getElem? fun j => ?_)
  rw [List.getElem?_take, List.getElem?_take]
  split
  · next hj => exact hagree j hj
  · rfl

/-! ### The bus commands at their indices (R102; log 16) -/

theorem writeOk_eq_decide (a : BusAnswer) : writeOk a = decide (a ≠ .fail) := by
  rw [Bool.eq_iff_iff, writeOk_eq_true, decide_eq_true_iff]

/-- A write command where its micro-op stands. -/
theorem execCmdWrite_at {s : State} {k : Fin 23} {op : Instr} {reg : BitVec 16} {pl : Payload}
    (hu : s.upc = .run k) (hm : microAt k = op) :
    atIndexOf op s (.next (busWrite reg pl s).2) = .next { (takeAnswer 0 s).2 with
      trace := .settle s.cfg.tSettle ::
        .wr s.cfg.devAddr reg pl.p0 pl.p1 (decide ((takeAnswer 0 s).1 ≠ .fail)) :: s.trace } := by
  rw [atIndexOf_of_run hu hm, ← writeOk_eq_decide]
  simp [busWrite, emit]

/-- The next state of a read of `n` bytes that is answered by no more. -/
theorem busRead_of_fits {n : Nat} {s : State} {reg : BitVec 16}
    (hfit : ∀ bytes, (takeAnswer n s).1 = .ok bytes → bytes.length ≤ n) :
    ifAnswerFits n s (busRead reg n s).2 = .next { (takeAnswer n s).2 with
      trace := .rd s.cfg.devAddr reg n (takeAnswer n s).1 :: s.trace } := by
  rw [ifAnswerFits_of_le hfit]
  simp [busRead, emit]

/-- Settles O36: each command is the one read or the one write of its micro-op. -/
theorem busCommandsMakeOneTransaction : Obligations.BusCommandsMakeOneTransaction := by
  intro s k hu dev wrote fits
  refine ⟨?status, fun n => ?points, fun hk => execCmdWrite_at hu (microAt_wclr.2 hk),
    fun hk => execCmdWrite_at hu (microAt_wcpu.2 hk),
    fun hk => execCmdWrite_at hu (microAt_wptm.2 hk),
    fun hk => execCmdWrite_at hu (microAt_wsta.2 hk)⟩
  case status =>
    intro hk hfit
    exact (atIndexOf_of_run hu (microAt_rdst.2 hk) _).trans (busRead_of_fits hfit)
  case points =>
    intro hk h0 hn hfit
    calc exec (.cmdRdPoints n) s
        = if n.toNat = chunkSize s.cfg s.rem ∧ n ≠ 0 then
            ifAnswerFits n.toNat s (busRead s.cfg.regPointData n.toNat s).2 else _ :=
          atIndexOf_of_run hu (microAt_rdpt.2 hk) _
      _ = ifAnswerFits n.toNat s (busRead s.cfg.regPointData n.toNat s).2 := if_pos ⟨hn, h0⟩
      _ = _ := busRead_of_fits hfit

/-! ### Which instruction writes which register (R24) -/

/-- Settles O42: by the instruction; the next state of each says which registers it has written. -/
theorem registersHaveTheirWriters : Obligations.RegistersHaveTheirWriters := by
  intro i s t h selector control
  cases i with
  | reset | take | irq | query | decode => cases h; simp +contextual [selector, control]
  | poll =>
    obtain ⟨-, ⟨-, rfl⟩ | ⟨-, rfl⟩⟩ := execPoll_next h <;> simp +contextual [selector, control]
  | branch1 sw | branch2 sw | branch3 sw | branch4Pt sw | branch4Ges sw | branch5 sw | branch6 sw =>
    obtain ⟨-, -, _, rfl⟩ := exec_selector_next (sw := sw) (by simp) h
    simp +contextual [selector, control]
  | rdst =>
    obtain ⟨-, ⟨_, -, -, rfl⟩ | rfl⟩ := execRdst_next h <;> simp +contextual [selector, control]
  | disp => obtain ⟨-, rfl⟩ := execDisp_next h; simp +contextual [selector, control]
  | wclr | wcpu | wptm | wsta =>
    obtain ⟨_, _, _, -, -, -, rfl | rfl⟩ := exec_control_next (by simp) h <;>
      simp +contextual [selector, control]
  | rdpt =>
    obtain ⟨-, ⟨-, rfl⟩ | ⟨-, _, -, -, rfl⟩ | ⟨-, rfl⟩⟩ := execRdpt_next h <;>
      simp +contextual [selector, control]
  | publ => obtain ⟨-, rfl⟩ := execPubl_next h; simp +contextual [selector, control]
  | lclr => obtain ⟨-, -, -, rfl⟩ := execLclr_next h; simp +contextual [selector, control]
  | done => obtain ⟨-, -, -, rfl⟩ := execDone_next h; simp +contextual [selector, control]
  | cmdRdStatus => obtain ⟨-, rfl⟩ := execCmdRdStatus_next h; simp +contextual [selector, control]
  | cmdRdPoints => obtain ⟨-, -, -, rfl⟩ := execCmdRdPoints_next h; simp +contextual [selector, control]
  | cmdClearInt | cmdStartCpu | cmdPointMode | cmdStartSampling =>
    obtain ⟨-, -, -, rfl⟩ := execCmdWrite_next h
    simp +contextual [selector, control]

end Sys2Proof.Machine

namespace Sys2Proof.Machine

/-! ### The settle delay after every control write (R74, R285) -/

/-- A line that is no write may be put before lines in which every write has its delay: a delay there is not that
of the write next to it, which would have none. -/
theorem settled_cons {d : Nat} {line : TraceLine} {lines : List TraceLine}
    (hw : ∀ dev reg p0 p1 ok, line ≠ .wr dev reg p0 p1 ok) (hl : settled d lines = true) :
    settled d (line :: lines) = true := by
  cases line with
  | wr dev reg p0 p1 ok => exact absurd rfl (hw dev reg p0 p1 ok)
  | settle e =>
    rcases lines with _ | ⟨next, older⟩
    · rfl
    · cases next with
      | wr => cases hl
      | _ => exact hl
  | _ => exact hl

/-- Lines of that kind may be put before others of that kind. -/
theorem settled_append {d : Nat} {added older : List TraceLine} (ha : settled d added = true)
    (ho : settled d older = true) : settled d (added ++ older) = true := by
  fun_induction settled d added with
  | case1 => exact ho
  | case2 => cases ha
  | case3 e dev reg p0 p1 ok rest ih =>
    obtain ⟨he, hrest⟩ := Bool.and_eq_true_iff.1 ha
    simpa [settled, ih hrest] using he
  | case4 line rest hw hdelay ih => exact settled_cons hw (ih ha)

/-- From `s` to `t` the trace grows by lines in which every write is followed by its delay. -/
def AddsSettledLines (s t : State) : Prop :=
  t.cfg = s.cfg ∧ ∃ added, t.trace = added ++ s.trace ∧ settled s.cfg.tSettle added = true

/-- Each event adds lines that are no writes. -/
theorem exec_event_addsSettledLines {s t : State} {i : Instr}
    (hi : i = .reset ∨ i = .irq ∨ i = .poll ∨ i = .take ∨ i = .query)
    (h : exec i s = .next t) : AddsSettledLines s t := by
  rcases hi with rfl | rfl | rfl | rfl | rfl
  case inr.inr.inl =>
    obtain ⟨-, ⟨-, rfl⟩ | ⟨-, rfl⟩⟩ := execPoll_next h
    · exact ⟨rfl, [.poll], rfl, rfl⟩
    · exact ⟨rfl, [.pollDone _, .poll], rfl, rfl⟩
  all_goals cases h; exact ⟨rfl, [_], rfl, rfl⟩

/-- A control write comes with its delay; the other micro-ops add lines that are no writes. -/
theorem exec_micro_addsSettledLines {s t : State} {k : Fin 23} (h : exec (microAt k) s = .next t) :
    AddsSettledLines s t := by
  rcases microAt_groups k with hm | hm | hctl | hm | hm | hm | hm
  · rw [hm] at h
    obtain ⟨-, ⟨_, -, -, rfl⟩ | rfl⟩ := execRdst_next h
    · exact ⟨by simp, [.rd _ _ _ _], rfl, rfl⟩
    · exact ⟨by simp, [.pollDone _, .rd _ _ _ _], rfl, rfl⟩
  · rw [hm] at h
    obtain ⟨-, rfl⟩ := execDisp_next h
    exact ⟨rfl, [], rfl, rfl⟩
  · obtain ⟨-, reg, pl, -, -, -, rfl | rfl⟩ := exec_control_next hctl h
    · exact ⟨by simp, [.settle _, .wr _ _ _ _ _], rfl, by simp [settled]⟩
    · exact ⟨by simp, [.pollDone _, .settle _, .wr _ _ _ _ _], rfl, by simp [settled]⟩
  · rw [hm] at h
    obtain ⟨-, ⟨-, rfl⟩ | ⟨-, _, -, -, rfl⟩ | ⟨-, rfl⟩⟩ := execRdpt_next h
    · exact ⟨rfl, [], rfl, rfl⟩
    · exact ⟨by simp, [.rd _ _ _ _], rfl, rfl⟩
    · exact ⟨by simp, [.pollDone _, .rd _ _ _ _], rfl, rfl⟩
  · rw [hm] at h
    obtain ⟨-, rfl⟩ := execPubl_next h
    exact ⟨rfl, [.pub _], rfl, rfl⟩
  · rw [hm] at h
    obtain ⟨-, -, -, rfl⟩ := execLclr_next h
    exact ⟨rfl, [], rfl, rfl⟩
  · rw [hm] at h
    obtain ⟨-, -, -, rfl⟩ := execDone_next h
    exact ⟨rfl, [.pollDone _], rfl, rfl⟩

/-- Settles O44: a step adds lines in which every write has its delay, and such lines keep the rule. -/
theorem settleDelayFollowsEveryWrite : Obligations.SettleDelayFollowsEveryWrite := by
  intro s t hs h
  have hadds : AddsSettledLines (consume s) t :=
    step_next_cases h ⟨rfl, [], rfl, rfl⟩ (fun _ hi he => exec_event_addsSettledLines hi he)
      (fun _ he => by cases he; exact ⟨rfl, [.decoded _], rfl, rfl⟩)
      (fun _ _ he => exec_micro_addsSettledLines he)
  obtain ⟨hcfg, added, ht, ha⟩ := hadds
  rw [hcfg, ht]
  exact settled_append ha hs

/-! ### Whole cycles without a payload (R150 to R152, R154, R155, R158) -/

/-- The state at the entry of the run of branch `b`, which is not branch 4, from an idle state `s` whose POLL has
read the status `b0 b1 b2 b3`. -/
def plainEntry (b : Branch) (b0 b1 b2 b3 : Byte) (more : List BusAnswer) (s : State) : State :=
  { s with
    upc := .run (branchEntry b)
    sw := b3 ++ b2 ++ b1 ++ b0
    res := { code := .running, branch := some b, loc := 0 }
    inbox := []
    answers := more
    trace := .rd s.cfg.devAddr s.cfg.regStatus 4 (.ok [b0, b1, b2, b3]) :: .poll :: s.trace }

/-- From POLL to the entry of a run without payload, when the status read selects it. -/
theorem runsTo_plain_entry {s : State} {b : Branch} {b0 b1 b2 b3 : Byte} {more : List BusAnswer}
    (hu : s.upc = .idle) (hl : s.latch = true) (hb : s.inbox = [.poll])
    (ha : s.answers = .ok [b0, b1, b2, b3] :: more)
    (hsel : branchOf s.cfg (decodeStatus (b3 ++ b2 ++ b1 ++ b0)) = b) (h4 : b ≠ .b4) :
    RunsTo 3 s (plainEntry b b0 b1 b2 b3 more s) := by
  have hb' : (consume s).inbox = [] := by simp [hb]
  have hrun := ((runsTo_poll hu hl hb).trans (runsTo_rdst rfl hb' ha)).trans (runsTo_disp rfl hb')
  simpa [plainEntry, enterBranch, startCycle, consume, hsel, h4, hb] using hrun

/-- The state after a control write at index `k` whose success was queued, with `rest` left of the answers. -/
def afterWrite (k : Fin 23) (reg : BitVec 16) (pl : Payload) (rest : List BusAnswer) (s : State) : State :=
  { s with
    upc := .run (k + 1)
    answers := rest
    trace := .settle s.cfg.tSettle :: .wr s.cfg.devAddr reg pl.p0 pl.p1 true :: s.trace }

section
variable {s : State} {k : Fin 23} {d : List Byte} {rest : List BusAnswer}

/-- A control write at its index, with a queued success (R159). -/
theorem runsTo_afterWrite {reg : BitVec 16} {pl : Payload} (hu : s.upc = .run k) (hk : k.val < 22)
    (hexec : exec (microAt k) s = .next (controlWrite reg pl s)) (hb : s.inbox = [])
    (ha : s.answers = .ok d :: rest) : RunsTo 1 s (afterWrite k reg pl rest s) := by
  have htake := takeAnswer_of_queued ha 0
  have hwrite := controlWrite_ok_at (reg := reg) (pl := pl) hu hk (by simp [htake])
  rw [htake] at hwrite
  exact .of_exec hu hb (hexec.trans (congrArg _ hwrite))

theorem runsTo_wclr_at (hk : k ∈ [2, 8, 11, 16, 19]) (hu : s.upc = .run k) (hb : s.inbox = [])
    (ha : s.answers = .ok d :: rest) :
    RunsTo 1 s (afterWrite k s.cfg.regClearInt s.cfg.plClearInt rest s) := by
  have hm : microAt k = .wclr := microAt_wclr.2 hk
  obtain ⟨hexec, hlast⟩ := exec_control_eq (.inl ⟨rfl, hk, rfl, rfl⟩) hu
  exact runsTo_afterWrite hu hlast (hm ▸ hexec) hb ha

theorem runsTo_wcpu (hu : s.upc = .run 3) (hb : s.inbox = []) (ha : s.answers = .ok d :: rest) :
    RunsTo 1 s (afterWrite 3 s.cfg.regStartCpu s.cfg.plStartCpu rest s) :=
  runsTo_afterWrite hu (by decide) (atIndexOf_of_run hu rfl _) hb ha

theorem runsTo_wptm (hu : s.upc = .run 6) (hb : s.inbox = []) (ha : s.answers = .ok d :: rest) :
    RunsTo 1 s (afterWrite 6 s.cfg.regPointMode s.cfg.plPointMode rest s) :=
  runsTo_afterWrite hu (by decide) (atIndexOf_of_run hu rfl _) hb ha

theorem runsTo_wsta (hu : s.upc = .run 7) (hb : s.inbox = []) (ha : s.answers = .ok d :: rest) :
    RunsTo 1 s (afterWrite 7 s.cfg.regStartSampling s.cfg.plStartSampling rest s) :=
  runsTo_afterWrite hu (by decide) (atIndexOf_of_run hu rfl _) hb ha

end

/-- LCLR at each of its indices (R157). -/
theorem exec_lclr_at {s : State} {k : Fin 23} (hk : k ∈ [4, 9, 12, 17, 20]) (hu : s.upc = .run k) :
    exec .lclr s = .next { s with latch := false, upc := .run (k + 1) } := by
  have hm : microAt k = .lclr := microAt_lclr.2 hk
  have hnext : nextUpc s.upc = .run (k + 1) := by rw [hu, nextUpc_of_not_done (by simp [hm])]
  rw [← hnext]
  exact atIndexOf_of_run hu hm _

/-- DONE at each of its indices (R158). -/
theorem exec_done_at {s : State} {k : Fin 23} (hk : k ∈ [5, 10, 13, 18, 21, 22]) (hu : s.upc = .run k) :
    exec .done s = .next (finishCycle s) :=
  atIndexOf_of_run hu (microAt_done.2 hk) _

/-- A run ends with LCLR and DONE, but for branch 6's. -/
theorem runsTo_lclr_done {s : State} {k : Fin 23} (hk : k ∈ [4, 9, 12, 17, 20]) (hu : s.upc = .run k)
    (hb : s.inbox = []) : RunsTo 2 s (finishCycle { s with latch := false }) := by
  have hindex : ∀ k : Fin 23, k ∈ [4, 9, 12, 17, 20] → k + 1 ∈ [5, 10, 13, 18, 21, 22] := by decide
  have hdone := hindex k hk
  have hfirst : RunsTo 1 s { s with latch := false, upc := .run (k + 1) } :=
    .of_exec hu hb (microAt_lclr.2 hk ▸ exec_lclr_at hk hu)
  exact hfirst.trans (.of_exec rfl hb (microAt_done.2 hdone ▸ exec_done_at hdone rfl))

/-- Settles O51: the entry, the branch's writes, and LCLR and DONE are runs, one after the other. -/
theorem cyclesWithoutPayloadRunToOk : Obligations.CyclesWithoutPayloadRunToOk := by
  intro s b0 b1 b2 b3 d1 d2 d3 rest hu hl hb sw b status read wr clear ended
  have hentry {b' : Branch} {more : List BusAnswer} (hsel : b = b') (h4 : b' ≠ .b4)
      (ha : s.answers = status :: more) : RunsTo 3 s (plainEntry b' b0 b1 b2 b3 more s) :=
    runsTo_plain_entry hu hl hb ha hsel h4
  refine ⟨fun h ha => ?_, fun h ha => ?_, fun h ha => ?_, fun h ha => ?_⟩
  · have hrun := (((hentry h (by decide) ha).trans (runsTo_wclr_at (k := 2) (by decide) rfl rfl rfl)).trans
      (runsTo_wcpu rfl rfl rfl)).trans (runsTo_lclr_done (k := 4) (by decide) rfl rfl)
    simp only [ended, hu, h]
    exact hrun.run_eq
  · have hrun := ((((hentry h (by decide) ha).trans (runsTo_wptm rfl rfl rfl)).trans
      (runsTo_wsta rfl rfl rfl)).trans (runsTo_wclr_at (k := 8) (by decide) rfl rfl rfl)).trans
      (runsTo_lclr_done (k := 9) (by decide) rfl rfl)
    simp only [ended, hu, h]
    exact hrun.run_eq
  · have hindex : branchEntry b ∈ [2, 8, 11, 16, 19] ∧ branchEntry b + 1 ∈ [4, 9, 12, 17, 20] ∧
        b ≠ .b4 := by
      rcases h with h | h <;> rw [h] <;> decide
    obtain ⟨hclear, hend, h4⟩ := hindex
    have hrun := ((hentry rfl h4 ha).trans (runsTo_wclr_at hclear rfl rfl rfl)).trans
      (runsTo_lclr_done hend rfl rfl)
    simp only [ended, hu]
    exact hrun.run_eq
  · have hdone : exec (microAt 22) (plainEntry .b6 b0 b1 b2 b3 rest s) =
        .next (finishCycle (plainEntry .b6 b0 b1 b2 b3 rest s)) := exec_done_at (by decide) rfl
    have hrun := (hentry h (by decide) ha).trans (.of_exec rfl rfl hdone)
    simp only [ended, hu, h, ← hl]
    exact hrun.run_eq

end Sys2Proof.Machine

namespace Sys2Proof.Machine

/-! ### Fetching and running a word (R7, R100, R106, R142; log 12) -/

/-- Settles O1: `step` is `exec` of what `fetch` gives and `decode` reads; with no word only the request goes. -/
theorem stepRunsTheDecodedWord : Obligations.StepRunsTheDecodedWord := by
  refine ⟨fun s kind bytes i hf hd => ?word, fun s hf => ?idle⟩
  case word => rw [step, hf]; exact congrArg (runDecoded _) hd
  case idle => rw [step, hf]; rfl

/-- The oldest request gives the word. -/
theorem fetch_of_request {s : State} {r : Request} {rest : List Request} (h : s.inbox = r :: rest) :
    fetch s = requestWord r s := by
  rw [fetch, h]

/-- At the polling agent's turn the micro-op gives the word. -/
theorem fetch_of_turn {s : State} (h : s.inbox = [] ∨ ∃ rest, s.inbox = .turn :: rest) :
    fetch s = microWord s := by
  rcases h with h | ⟨rest, h⟩
  · rw [fetch, h]
  · rw [fetch_of_request h]; rfl

/-- The codes of the 23 indices of the micro-program (R100, R141). -/
theorem encode_microAt (cfg : Config) (k : Fin 23) : encode cfg (microAt k) = (.uop,
    [([0, 1, 2, 3, 8, 9, 4, 5, 2, 8, 9, 2, 8, 9, 6, 7, 2, 8, 9, 2, 8, 9, 9] : List Byte).getD
      k.val 0]) := by
  fin_cases k <;> rfl

/-- Settles O2: a request gives its own code, and a turn the code of the micro-op at `upc`. -/
theorem fetchTakesRequestOrMicroOp : Obligations.FetchTakesRequestOrMicroOp := by
  refine ⟨fun s rest => ⟨fetch_of_request, fetch_of_request, fetch_of_request, fetch_of_request,
    fetch_of_request, fun b0 b1 b2 b3 h => ?probe⟩, fun s h => ⟨fun hu => ?idle, fun k hu => ?run⟩⟩
  case probe =>
    rw [fetch_of_request h]
    exact congrArg (fun bytes => some (WordKind.decoder, bytes)) (wordBytes_packWord b0 b1 b2 b3)
  case idle => rw [fetch_of_turn h, microWord, hu]
  case run =>
    rw [fetch_of_turn h, microWord, hu]
    exact congrArg some (encode_microAt s.cfg k)

/-- Settles O3: nine fixed words, each decoded by computing. -/
theorem wordsOfTheSpecDecode : Obligations.WordsOfTheSpecDecode :=
  ⟨rfl, rfl, rfl, rfl, rfl, rfl, rfl, rfl, rfl⟩

/-! ### The Status Decoder as an operation (R121, R126) -/

/-- Settles O8: the three fields are constants of `decodeStatus`. -/
theorem unassignedStatusFieldsAreZero : Obligations.UnassignedStatusFieldsAreZero :=
  fun _ => ⟨rfl, rfl, rfl⟩

/-- Settles O10: DECODE is ungated, and its meaning adds one line. -/
theorem decodeWritesNoRegister : Obligations.DecodeWritesNoRegister := fun _ _ => rfl

/-! ### RESET (R45 to R47, R280) -/

/-- Settles O15: the fields of `State.reset` as written. -/
theorem resetStateIsIdleAndEmpty : Obligations.ResetStateIsIdleAndEmpty :=
  ⟨rfl, rfl, rfl, rfl, rfl, rfl⟩

/-- Settles O17: the next state of RESET, field by field; `SCRATCH` is free but for its length. -/
theorem resetEventEmptiesTheMachine : Obligations.ResetEventEmptiesTheMachine := fun s =>
  have hlen : ((List.range s.cfg.scratchLen).map (Config.freeScratch s.fresh)).length =
      s.cfg.scratchLen := by simp
  ⟨_, rfl, rfl, rfl, rfl, rfl, rfl, rfl, hlen, rfl, rfl, rfl, rfl⟩

/-- Settles O47: the reset state is idle with empty buffers, and its result is NO_EVENT, of which the orders ask
nothing. -/
theorem resetMeetsTheInvariants : Obligations.ResetMeetsTheInvariants := by
  refine ⟨.of_idle ?slots (Nat.zero_le _) ?scratch rfl nofun (fun _ => rfl) nofun nofun,
    .of_idle rfl nofun nofun ?writes, .of_idle rfl ?row nofun nofun⟩
  case slots => exact List.length_replicate
  case scratch => exact List.length_replicate
  case writes => rintro (⟨⟨⟩⟩ | ⟨⟨⟩⟩)
  case row => rintro (⟨⟨⟩⟩ | ⟨⟨⟩⟩)

/-! ### POLL and QUERY (R140, R218, R287) -/

/-- Settles O19: POLL's two cases when idle, and its refusal in flight. -/
theorem pollStartsACycleOnlyWhenLatched : Obligations.PollStartsACycleOnlyWhenLatched := by
  intro s
  refine ⟨fun hu hl => ?_, fun hu hl => exec_poll_of_latched hu hl, fun k hu => ?_⟩
  · have hpoll : exec .poll s = .next (returnNoEvent s) := by simp [exec, execPoll, hu, hl]
    exact hpoll
  · simp [exec, execPoll, hu]

/-- Settles O41: after branch 6 the invariant keeps the latch set, so POLL starts a cycle. -/
theorem unmatchedStatusIsEvaluatedAgain : Obligations.UnmatchedStatusIsEvaluatedAgain :=
  fun _ hI hu hok h6 => exec_poll_of_latched hu (hI.unmatched hok h6)

/-- QUERY, in every state (R218). -/
theorem exec_query (s : State) : exec .query s = .next { s with
    tb := { s.tb with touchNum := 0 }
    trace := .query (queryOf (snapshotOf s.tb)) :: s.trace } := rfl

/-- The projection of an empty report (D20). -/
theorem queryOf_empty {r : TouchReport} (h : r.touchNum = 0) : queryOf (snapshotOf r) =
    { pressed := false, pointCount := 0, x := 0, y := 0, weight := 0 } := by
  simp [queryOf, snapshotOf, h]

/-- The projection of a report with a point is that of the first one (R218). -/
theorem queryOf_first {r : TouchReport} {p : TouchPoint} {ps : List TouchPoint}
    (h : 0 < r.touchNum) (hp : r.points = p :: ps) : queryOf (snapshotOf r) =
    { pressed := true, pointCount := r.touchNum, x := p.x, y := p.y, weight := p.weight } := by
  obtain ⟨n, hn⟩ := Nat.exists_eq_add_one.2 h
  simp [queryOf, snapshotOf, hp, hn]

/-- Settles O21: QUERY hands out the projection, in its two cases. -/
theorem queryProjectsTheFirstPoint : Obligations.QueryProjectsTheFirstPoint := by
  refine fun s => ⟨fun h0 => ?_, fun p ps h hp => ?_⟩
  · rw [exec_query, queryOf_empty h0]
  · rw [exec_query, queryOf_first h hp]

/-! ### The environment's answers (R62, U7, D26) -/

/-- Settles O23: the oldest answer, or a free one within the contract. -/
theorem answersComeOldestFirst : Obligations.AnswersComeOldestFirst := by
  refine fun n s => ⟨fun a rest ha => takeAnswer_of_queued ha n, fun ha => ?_⟩
  refine ⟨freeAnswer s.fresh n, by simp [takeAnswer, ha], ?_⟩
  rcases hfree : freeAnswer s.fresh n with _ | bytes
  · exact .inl rfl
  · exact .inr ⟨bytes, rfl, freeAnswer_length hfree⟩

/-- A read whose queued answer is longer than asked is refused (U7). -/
theorem ifAnswerFits_of_long {n : Nat} {s t : State} {bytes : List Byte} {rest : List BusAnswer}
    (ha : s.answers = .ok bytes :: rest) (hl : n < bytes.length) :
    ifAnswerFits n s t = .refused .answerTooLong :=
  if_neg (by simpa [answerFits, ha] using hl)

/-- Settles O26: the reads at their indices, each behind the gate that refuses a long answer. -/
theorem longAnswersAreRefused : Obligations.LongAnswersAreRefused := by
  intro s bytes rest ha
  refine ⟨fun hu hl => ⟨?_, ?_⟩, fun n hu h0 hn hl => ⟨?_, ?_⟩⟩
  · exact (atIndexOf_of_run hu rfl _).trans (ifAnswerFits_of_long ha hl)
  · exact (atIndexOf_of_run hu rfl _).trans (ifAnswerFits_of_long ha hl)
  · calc exec .rdpt s
        = if s.rem = 0 then _ else ifAnswerFits (chunkSize s.cfg s.rem) s (readChunk s) :=
          atIndexOf_of_run hu rfl _
      _ = ifAnswerFits (chunkSize s.cfg s.rem) s (readChunk s) := if_neg h0
      _ = .refused .answerTooLong := ifAnswerFits_of_long ha (hn.symm.trans_lt hl)
  · have hsize : n.toNat = chunkSize s.cfg s.rem := hn
    have hpos := chunkSize_pos (cfg := s.cfg) h0
    have hn0 : n ≠ 0 := by
      rintro rfl
      rw [← hsize] at hpos
      exact absurd hpos (by decide)
    calc exec (.cmdRdPoints n) s
        = if n.toNat = chunkSize s.cfg s.rem ∧ n ≠ 0 then
            ifAnswerFits n.toNat s (busRead s.cfg.regPointData n.toNat s).2 else _ :=
          atIndexOf_of_run hu rfl _
      _ = ifAnswerFits n.toNat s (busRead s.cfg.regPointData n.toNat s).2 := if_pos ⟨hsize, hn0⟩
      _ = .refused .answerTooLong := ifAnswerFits_of_long ha hl

/-! ### LCLR, DONE and the reference layout (R157, R158, R183) -/

/-- Settles O34: LCLR where it stands. -/
theorem lclrClearsTheLatch : Obligations.LclrClearsTheLatch := fun _ _ => exec_lclr_at

/-- Settles O35: DONE where it stands. -/
theorem doneReturnsOk : Obligations.DoneReturnsOk := fun _ _ => exec_done_at

/-- Four bits above a byte, widened, as a number. -/
theorem nibble_append_byte_toNat (b low : Byte) (i : Nat) :
    ((b.extractLsb' i 4 ++ low).setWidth 16 : BitVec 16).toNat =
      b.toNat / 2 ^ i % 16 * 256 + low.toNat := by
  have hlow := low.isLt
  rw [BitVec.toNat_setWidth, append_toNat, BitVec.extractLsb'_toNat, Nat.shiftRight_eq_div_pow]
  omega

/-- Settles O37: the high and the low four bits of `r2`, each above a byte. -/
theorem referenceLayoutPacksTwelveBits : Obligations.ReferenceLayoutPacksTwelveBits := by
  intro i r0 r1 r2 r3 p
  have hr2 := r2.isLt
  have hx : p.x.toNat = r2.toNat / 2 ^ 4 % 16 * 256 + r0.toNat := nibble_append_byte_toNat r2 r0 4
  have hy : p.y.toNat = r2.toNat / 2 ^ 0 % 16 * 256 + r1.toNat := nibble_append_byte_toNat r2 r1 0
  exact ⟨BitVec.toNat_ofNat i 8, hx.trans (by omega), hy.trans (by omega), rfl⟩

end Sys2Proof.Machine
